-- ==== Sys2Proof/Word.lean ====
section
/-! DEFINITION. The words of the block: 32-bit words and the bytes of host memory (spec 00_scope.md R6, R7). -/

namespace Sys2Proof

/-- A 32-bit word: "an unsigned bit pattern of 32 bits" (R7). Samples, taps, results, references and command words. -/
abbrev Word := BitVec 32

/-- One byte of host memory (R40). -/
abbrev Byte := BitVec 8

end Sys2Proof
end

