-- ==== Sys2Proof/Config.lean ====
section
/-! DEFINITION. The parameters of the block (spec 00_scope.md R6, 10_state.md R28): the values the spec fixes, as named
constants, and the values it leaves open, as uninterpreted constants that no proof can see. -/

namespace Sys2Proof.Config

/-- `N_LANES`: lanes per channel, the window length (R6, R28). -/
abbrev nLanes : Nat := 8

/-- `CHANNELS`: real (index 0) and imaginary (index 1) (R6). -/
abbrev channels : Nat := 2

/-- `DATA_W`: width of samples, taps and integer results, in bits (R6). -/
abbrev dataW : Nat := 32

/-- Bytes of one word (R41). -/
abbrev wordBytes : Nat := 4

/-- `SHIFT`: the right shift of each lane product in the float command (R6, R28, R83). -/
abbrev shift : Nat := 8

/-- `SCALE` as a binary32 pattern: 2^-15 (R28). -/
def scale : Word := 0x38000000#32

/-- `SCALE` = 2 to the power of minus this (R6, R28, R90). -/
abbrev scaleLog2 : Nat := 15

/-- `ADDR_W` = 32: host memory is "a byte-addressed space of 2^32 bytes" (R6, R40). -/
abbrev addrSpace : Nat := 2 ^ 32

/-- `REF_ALIGN`: every reference is a multiple of this (R6, R44). -/
abbrev refAlign : Nat := 4

/-- Bytes of one input window: 8 words (R42). -/
abbrev windowBytes : Nat := nLanes * wordBytes

/-- Bytes of the result: 2 words (R42). -/
abbrev resultBytes : Nat := channels * wordBytes

/-- `CMD_WORDS`: words of one command (R6, R60). -/
abbrev cmdWords : Nat := 5

/-- Bytes of one command: "Every command is exactly 20 bytes" (R66). -/
abbrev cmdBytes : Nat := cmdWords * wordBytes

/-- `N_INSTANCES` (R6, R136): this model is one instance (assumption log 12). -/
abbrev nInstances : Nat := 1

/-- FREE VALUE, one per address: what a read of a byte the host did not admit would give. Every command checks
admission before its first read (R46), so no command ever uses it (assumption log 7). -/
opaque unadmittedByte : Nat → Byte

/-- The forms decision D2 names for the command channel. -/
inductive CmdChannel where
  | port
  | fifo
  | memoryMapped
  deriving DecidableEq, Repr, Inhabited

/-- OPEN parameter `CMD_CHANNEL` (R6, R66, D2): how the host delivers a command. The model takes each command whole, by
value and in order, whatever this is (assumption log 14). -/
opaque cmdChannel : CmdChannel

/-- OPEN parameter `FAULT_REPORT` (R6, R128, D19): the words the host can read off the block, as a function of its fault
record (none when `Idle`; else the code and the recorded value of R121). Nothing is known of it (assumption log 14). -/
opaque faultReport : Option (Nat × Word) → List Word

end Sys2Proof.Config
end

