-- ==== Sys2Proof/Syntax.lean ====
section
/-! DEFINITION. Commands: the five raw words the host delivers (spec 30_encoding.md R60), and the three commands they can
stand for, one constructor per row of spec/opcode_table.json (R62). -/

namespace Sys2Proof

/-- The one command format, `CMD5`: five words, in the order the host delivers them (R60). Any five words are a value of
this type; which of them are commands is the decoder's business (R67). -/
structure Cmd5 where
  /-- Word 0, `CMD`: the control word (R61). -/
  cmd : Word
  /-- Word 1, `RREF`: byte address of the real window. -/
  rref : Word
  /-- Word 2, `IREF`: byte address of the imaginary window. -/
  iref : Word
  /-- Word 3, `HREF`: byte address of the tap window. -/
  href : Word
  /-- Word 4, `YREF`: byte address of the result. -/
  yref : Word
  deriving DecidableEq, Repr

/-- The block's whole command set (R62, R133). The operands are the four reference words of R63, in the order real
samples, imaginary samples, taps, result. -/
inductive Instr where
  /-- `dotprod_8`: flat-sum integer complex dot product (R101). -/
  | dotprod8 (rref iref href yref : Word)
  /-- `dotprod_8_float`: shift, tree sum, convert and scale to binary32 (R102). -/
  | dotprod8Float (rref iref href yref : Word)
  /-- `dotprod_8_horiz`: tree-sum integer complex dot product (R103). -/
  | dotprod8Horiz (rref iref href yref : Word)
  deriving DecidableEq, Repr

/-- The real-window reference of a command. -/
def Instr.rref : Instr → Word
  | .dotprod8 r _ _ _ => r
  | .dotprod8Float r _ _ _ => r
  | .dotprod8Horiz r _ _ _ => r

/-- The imaginary-window reference of a command. -/
def Instr.iref : Instr → Word
  | .dotprod8 _ i _ _ => i
  | .dotprod8Float _ i _ _ => i
  | .dotprod8Horiz _ i _ _ => i

/-- The tap-window reference of a command. -/
def Instr.href : Instr → Word
  | .dotprod8 _ _ h _ => h
  | .dotprod8Float _ _ h _ => h
  | .dotprod8Horiz _ _ h _ => h

/-- The result reference of a command. -/
def Instr.yref : Instr → Word
  | .dotprod8 _ _ _ y => y
  | .dotprod8Float _ _ _ y => y
  | .dotprod8Horiz _ _ _ y => y

end Sys2Proof
end

