-- ==== Sys2Proof/Decode.lean ====
section
/-! DEFINITION. The encoding of commands (spec 30_encoding.md): words as little-endian bytes (20_memory.md R41), the
decoder (R67), total on any five words and on any bytes, and the encoder written from the same table (R62). -/

namespace Sys2Proof

/-- Four bytes, lowest address first, as a word: little-endian (R41). -/
def wordOfBytes (b0 b1 b2 b3 : Byte) : Word := b3 ++ b2 ++ b1 ++ b0

/-- Byte `j` (0 to 3) of a word: bits `[8j+7 : 8j]`, which R41 puts at address `a + j`. -/
def byteOfWord (w : Word) (j : Nat) : Byte := w.extractLsb' (8 * j) 8

/-- A word as the four bytes the hardware stores, lowest address first (R41). -/
def bytesOfWord (w : Word) : List Byte :=
  [byteOfWord w 0, byteOfWord w 1, byteOfWord w 2, byteOfWord w 3]

/-- The field `OP = CMD[1:0]` (R61). -/
def opField (w0 : Word) : BitVec 2 := w0.extractLsb' 0 2

/-- The field `RSV = CMD[31:2]` (R61). -/
def rsvField (w0 : Word) : BitVec 30 := w0.extractLsb' 2 30

/-- The `CMD` word of `dotprod_8` (R62). -/
def cmdDotprod8 : Word := 0x00000000#32

/-- The `CMD` word of `dotprod_8_float` (R62). -/
def cmdDotprod8Float : Word := 0x00000001#32

/-- The `CMD` word of `dotprod_8_horiz` (R62). -/
def cmdDotprod8Horiz : Word := 0x00000002#32

/-- What five words stand for: a command, or `Illegal(w0)` by name (R67). -/
inductive Decoded where
  /-- A command of the block. -/
  | command (i : Instr)
  /-- An illegal command: it executes as `raise ILLEGAL_COMMAND(w0)` (R64). -/
  | illegal (w0 : Word)
  deriving DecidableEq, Repr

/-- The decoder of one command, by R67 word for word: `CMD` is matched whole, with mask `0xFFFFFFFF` (R62). -/
def decode (c : Cmd5) : Decoded :=
  if c.cmd = cmdDotprod8 then .command (.dotprod8 c.rref c.iref c.href c.yref)
  else if c.cmd = cmdDotprod8Float then .command (.dotprod8Float c.rref c.iref c.href c.yref)
  else if c.cmd = cmdDotprod8Horiz then .command (.dotprod8Horiz c.rref c.iref c.href c.yref)
  else .illegal c.cmd

/-- The next word of a byte stream, and the rest; none if fewer than four bytes are left. -/
def takeWord : List Byte → Option (Word × List Byte)
  | b0 :: b1 :: b2 :: b3 :: rest => some (wordOfBytes b0 b1 b2 b3, rest)
  | _ => none

/-- The next command of a byte stream: "its five words in order CMD, RREF, IREF, HREF, YREF, each word little-endian"
(R66); none if fewer than 20 bytes are left. -/
def takeCmd5 (bs : List Byte) : Option (Cmd5 × List Byte) :=
  match takeWord bs with
  | none => none
  | some (w0, bs1) =>
    match takeWord bs1 with
    | none => none
    | some (w1, bs2) =>
      match takeWord bs2 with
      | none => none
      | some (w2, bs3) =>
        match takeWord bs3 with
        | none => none
        | some (w3, bs4) =>
          match takeWord bs4 with
          | none => none
          | some (w4, bs5) => some (⟨w0, w1, w2, w3, w4⟩, bs5)

/-- What a byte stream begins with. -/
inductive DecodedBytes where
  /-- A whole command and the bytes after it. -/
  | command (i : Instr) (rest : List Byte)
  /-- An illegal command, by its `CMD` word, and the bytes after it (R64). -/
  | illegal (w0 : Word) (rest : List Byte)
  /-- Fewer than the 20 bytes of one command (R66). -/
  | truncated
  deriving DecidableEq, Repr

/-- The decoder on bytes, total on any bytes (R66, R67). -/
def decodeBytes (bs : List Byte) : DecodedBytes :=
  match takeCmd5 bs with
  | none => .truncated
  | some (c, rest) =>
    match decode c with
    | .command i => .command i rest
    | .illegal w0 => .illegal w0 rest

/-- A stream of bytes as a host command list (R149); none if the last command is cut short. The first argument bounds the
number of commands. -/
def commandsOfBytes : Nat → List Byte → Option (List Cmd5)
  | _, [] => some []
  | 0, _ :: _ => none
  | n + 1, b :: bs =>
    match takeCmd5 (b :: bs) with
    | none => none
    | some (c, rest) => (commandsOfBytes n rest).map (c :: ·)

/-- The encoder: the five words of a command, from the same table (R60, R62). -/
def encode : Instr → Cmd5
  | .dotprod8 r i h y => ⟨cmdDotprod8, r, i, h, y⟩
  | .dotprod8Float r i h y => ⟨cmdDotprod8Float, r, i, h, y⟩
  | .dotprod8Horiz r i h y => ⟨cmdDotprod8Horiz, r, i, h, y⟩

/-- Five words as the 20 bytes of R66. -/
def bytesOfCmd5 (c : Cmd5) : List Byte :=
  bytesOfWord c.cmd ++ bytesOfWord c.rref ++ bytesOfWord c.iref ++ bytesOfWord c.href ++ bytesOfWord c.yref

/-- A command as the 20 bytes of R66. -/
def encodeBytes (i : Instr) : List Byte := bytesOfCmd5 (encode i)

/-- The low `n` bytes of a number, least significant first. -/
def bytesOfNat : Nat → Nat → List Byte
  | 0, _ => []
  | n + 1, w => BitVec.ofNat 8 w :: bytesOfNat n (w / 256)

/-- The 20 bytes of a command whose bits are the low `nbits` bits of `w`, every higher bit 0, numbered as
spec/opcode_table.json numbers them: bit 0 the least significant bit of the first word, a later word's bits counting on from
it. With little-endian words (R41) that is the number's own bytes, least significant first (assumption log 8). -/
def tableBytes (nbits w : Nat) : List Byte := bytesOfNat Config.cmdBytes (w % 2 ^ nbits)

/-- The instruction the decoder reads from those bits, if any. -/
def decodeTableWord (nbits w : Nat) : Option Instr :=
  match decodeBytes (tableBytes nbits w) with
  | .command i _ => some i
  | .illegal _ _ => none
  | .truncated => none

end Sys2Proof
end

