-- ==== Sys2Proof/Machine/State.lean ====
section
/-! DEFINITION. The state of the model as plain data: `BlockState` is the state of spec 10_state.md R31, exactly `phase` and
`mem`; `State` carries beside it the parameter R31 names, the host's command list, with the index of its next command (R26,
R149, R150), because the step function's one argument is the state (DESIGN CHOICE, assumption log 1). Commands are functions
on `BlockState` alone. -/

namespace Sys2Proof.Machine

/-- The four fault causes with the value each records (60_exceptions.md R121). Code 1 is a behaviour of the block; codes 2
to 4 are the model's marks for behaviour the document leaves undefined. -/
inductive FaultCause where
  /-- Code 1, `ILLEGAL_COMMAND`: records the `CMD` word (R122). -/
  | illegalCommand (cmd : Word)
  /-- Code 2, `MISALIGNED_REFERENCE`: records the first failing reference (R123). -/
  | misalignedReference (ref : Word)
  /-- Code 3, `ACCESS_FAULT`: records the first failing reference (R124). -/
  | accessFault (ref : Word)
  /-- Code 4, `OUTPUT_ALIAS`: records the first overlapped input reference (R125). -/
  | outputAlias (ref : Word)
  deriving DecidableEq, Repr

/-- The block's only persistent state (R21). -/
inductive Phase where
  /-- The block can accept and execute a command. -/
  | idle
  /-- A command faulted with this cause; no further command is accepted until reset. -/
  | faulted (cause : FaultCause)
  deriving DecidableEq, Repr

/-- Host memory (R31, R40): a finite map from byte addresses to bytes, held as a list of cells. A listed address is
admitted and holds its byte; an unlisted address is not admitted (assumption log 6). -/
abbrev Memory := List Host.Cell

/-- Addresses strictly rising from `lo` on, and inside the 2^32-byte space (R40). -/
def Memory.wfFrom : Nat → Memory → Bool
  | _, [] => true
  | lo, (a, _) :: rest => decide (lo ≤ a) && decide (a < 2 ^ 32) && Memory.wfFrom (a + 1) rest

/-- The canonical form: addresses strictly rising and inside the address space. An unlisted address reads as "not
admitted", which no entry can say, so no entry is redundant and equal memories are equal lists. -/
def Memory.wf (m : Memory) : Bool := Memory.wfFrom 0 m

/-- The state of one block instance with its environment: exactly R31. -/
structure BlockState where
  /-- The block's fault record (R21). -/
  phase : Phase
  /-- Host memory (R30, R40). -/
  mem : Memory
  deriving DecidableEq, Repr

/-- What the step function is given: the state of R31, and beside it the parameter of R31 and R149, the host's command list,
with the position of the run in it. No command reads or writes the two added fields (assumption log 1). -/
structure State extends BlockState where
  /-- The host command list, in issue order (R149). No step changes it (R56). -/
  program : List Cmd5
  /-- The index of the next command in `program` (R26, R150). -/
  index : Nat
  deriving DecidableEq, Repr

/-- Why the step function stops with a fault. -/
inductive Fault where
  /-- Raised by the step and by every meaning when `phase` is already `Faulted(cause)`: "In `Faulted` the block has no step"
  (R100, R127). Safe: the machine stops where the spec gives it no step (assumption log 4). -/
  | blockFaulted (cause : FaultCause)
  deriving DecidableEq, Repr

/-- Why the step function answers nothing. -/
inductive Refusal where
  /-- Raised by exec's arm of an instruction that has no meaning yet. Safe: nothing follows from it. No arm raises it. -/
  | notModelled (mnemonic : String)
  /-- Raised by the step when `phase = Idle` and the host has delivered no command: the step "is enabled only when `phase =
  Idle` and the host has delivered a command" (R100). Not a failure of the run: it has ended (R150). Safe (assumption log 5). -/
  | noCommand
  deriving DecidableEq, Repr

/-- The machine right after reset (R140): `phase = Idle`, no command outstanding, and a host memory of which the spec says
only that the host fixes it: nothing is listed, so nothing is admitted (DESIGN CHOICE, assumption log 6). -/
def State.reset : State where
  phase := .idle
  mem := []
  program := []
  index := 0

end Sys2Proof.Machine
end

