-- ==== Sys2Proof/Machine/Ops.lean ====
section
/-! DEFINITION. The shared operations: host memory by bytes and by words (spec 20_memory.md R40, R41), taking a fault and
the reset that alone leaves it (60_exceptions.md R121, R127, R129; 70_reset_and_hazards.md R140, R141), the command list,
and what the host can do between commands. -/

namespace Sys2Proof.Machine

/-- The byte at an address, or none where the host admitted none (R31, R40). -/
def Memory.read : Memory → Nat → Option Byte
  | [], _ => none
  | (k, b) :: rest, a => if k = a then some b else Memory.read rest a

/-- Whether an address is admitted (R40). -/
def Memory.admits (m : Memory) (a : Nat) : Bool := (m.read a).isSome

/-- Store a byte at an admitted address. At an address that is not admitted it changes nothing: "The set of admitted
addresses is fixed by the host for the whole run" (R40). -/
def Memory.write : Memory → Nat → Byte → Memory
  | [], _, _ => []
  | (k, b) :: rest, a, v => if k = a then (k, v) :: rest else (k, b) :: Memory.write rest a v

/-- The byte a word access takes from an address. The default is a free value, and no command reaches it: every range is
checked for admission first (R46; assumption log 7). -/
def Memory.byteAt (m : Memory) (a : Nat) : Byte := (m.read a).getD (Config.unadmittedByte a)

/-- `MemRead(a, 4)` (R41). -/
def Memory.readWord (m : Memory) (a : Nat) : Word :=
  wordOfBytes (m.byteAt a) (m.byteAt (a + 1)) (m.byteAt (a + 2)) (m.byteAt (a + 3))

/-- `MemWrite(a, 4, v)` (R41). -/
def Memory.writeWord (m : Memory) (a : Nat) (v : Word) : Memory :=
  (((m.write a (byteOfWord v 0)).write (a + 1) (byteOfWord v 1)).write (a + 2) (byteOfWord v 2)).write (a + 3)
    (byteOfWord v 3)

/-- The fault codes of R121. -/
def FaultCause.code : FaultCause → Nat
  | .illegalCommand _ => 1
  | .misalignedReference _ => 2
  | .accessFault _ => 3
  | .outputAlias _ => 4

/-- The recorded value of R121. -/
def FaultCause.recorded : FaultCause → Word
  | .illegalCommand w => w
  | .misalignedReference w => w
  | .accessFault w => w
  | .outputAlias w => w

/-- The state after taking a fault (R127): `phase <- Faulted(cause)`, and "nothing else is saved or changed". For codes 2
to 4 the unchanged memory is the model's, not a claim about the hardware (R121, R127; assumption log 3). -/
def BlockState.withFault (b : BlockState) (cause : FaultCause) : BlockState := { b with phase := .faulted cause }

/-- The same, with the command list and its index beside it. -/
def State.withFault (s : State) (cause : FaultCause) : State :=
  { s with toBlockState := s.toBlockState.withFault cause }

/-- `raise <Fault>(info)` (00_scope.md R8): taking a fault is a next state. -/
def takeFault (cause : FaultCause) (b : BlockState) : Host.Outcome BlockState Fault Refusal := .next (b.withFault cause)

/-- Run something only when the block is `Idle`: in `Faulted` it has no step (R100, R127). -/
def whenIdle {σ : Type} (phase : Phase) (run : Host.Outcome σ Fault Refusal) : Host.Outcome σ Fault Refusal :=
  match phase with
  | .idle => run
  | .faulted cause => .fault (.blockFaulted cause)

/-- Run a command on the state of R31; the command list and its index are beside it and are not touched. -/
def onBlock (run : BlockState → Host.Outcome BlockState Fault Refusal) (s : State) : Host.Outcome State Fault Refusal :=
  match run s.toBlockState with
  | .next b => .next { s with toBlockState := b }
  | .fault r => .fault r
  | .refused r => .refused r

/-- Reset of the block, the one way out of `Faulted` (R129, R140): `phase = Idle`; host memory is not changed (R141). It is
the host's action, not a step. -/
def BlockState.reset (b : BlockState) : BlockState := { b with phase := .idle }

/-- Reset of the block, after which the host has no command outstanding (R140): its list starts afresh (DESIGN CHOICE,
assumption log 9). -/
def State.blockReset (s : State) : State := { toBlockState := s.toBlockState.reset, program := [], index := 0 }

/-- The next command the host has issued, if any (R66, R150). -/
def State.nextCommand (s : State) : Option Cmd5 := s.program[s.index]?

/-- The state once the next command has been taken (R150; assumption log 2). -/
def State.advance (s : State) : State := { s with index := s.index + 1 }

/-- The commands issued and not yet taken. -/
def State.outstanding (s : State) : List Cmd5 := s.program.drop s.index

/-- The host issues one more command (R66): it is appended to the list. -/
def State.deliver (s : State) (c : Cmd5) : State := { s with program := s.program ++ [c] }

/-- The host writes a word of its memory between commands (R41, R52; assumption log 20). -/
def State.hostWriteWord (s : State) (a : Nat) (v : Word) : State := { s with mem := s.mem.writeWord a v }

/-- `s.program` with `c` at the place the next command is taken from. -/
def State.placeCommand (s : State) (c : Cmd5) : State :=
  { s with
    phase := .idle
    program := s.program.take s.index ++ List.replicate (s.index - s.program.length) c ++
      c :: s.program.drop (s.index + 1) }

end Sys2Proof.Machine
end

