-- ==== Sys2Proof/Machine/Operands.lean ====
section
/-! DEFINITION. The one operand form: a reference to a window or to the result (spec 20_memory.md R42, R43), the checks
made before any access, in the spec's order (R44 to R47, 60_exceptions.md R126), the loads and the stores. -/

namespace Sys2Proof.Machine

/-- One value per lane, lane `k` being element `k` of its window (10_state.md R23, 40_datapath.md R93). A local value of
one command, never part of State (R31). -/
abbrev Lanes := Fin Config.nLanes → Word

/-- The address of element `k` of the window or result at a reference: exactly `REF + 4*k`, on unbounded integers (R43,
R63). -/
def elementAddr (ref : Word) (k : Nat) : Nat := ref.toNat + Config.wordBytes * k

/-- A reference that is not a multiple of 4 (R44). -/
def isMisaligned (x : Word) : Bool := x.toNat % Config.refAlign != 0

/-- A range of `n` bytes that stays inside the address space and is admitted in every byte (R45, R46). -/
def isAccessible (m : Memory) (x : Word) (n : Nat) : Bool :=
  decide (x.toNat + n ≤ Config.addrSpace) && (List.range n).all (fun j => m.admits (x.toNat + j))

/-- The output range `[y, y+8)` and the input range `[x, x+32)` share at least one byte (R47). -/
def overlapsInput (y x : Word) : Bool :=
  decide (x.toNat < y.toNat + Config.resultBytes) && decide (y.toNat < x.toNat + Config.windowBytes)

/-- The first misaligned reference, in the order RREF, IREF, HREF, YREF (R123). -/
def firstMisaligned (r i h y : Word) : Option Word := [r, i, h, y].find? isMisaligned

/-- The first reference whose range wraps or is not admitted, in the same order (R124). -/
def firstInaccessible (m : Memory) (r i h y : Word) : Option Word :=
  ([(r, Config.windowBytes), (i, Config.windowBytes), (h, Config.windowBytes), (y, Config.resultBytes)].find?
    (fun p => !isAccessible m p.1 p.2)).map Prod.fst

/-- The first input reference the output range overlaps, in the order RREF, IREF, HREF (R125). -/
def firstOverlapped (r i h y : Word) : Option Word := [r, i, h].find? (overlapsInput y)

/-- The checks of 41_dotprod.md R100, in its order: "the first that fails decides the fault" (R126). -/
def checkReferences (m : Memory) (r i h y : Word) : Option FaultCause :=
  match firstMisaligned r i h y with
  | some x => some (.misalignedReference x)
  | none =>
    match firstInaccessible m r i h y with
    | some x => some (.accessFault x)
    | none =>
      match firstOverlapped r i h y with
      | some x => some (.outputAlias x)
      | none => none

/-- The eight words of the window at a reference (R43). -/
def loadWindow (m : Memory) (ref : Word) : Lanes := fun k => m.readWord (elementAddr ref k)

/-- Write the two result words at the output reference: `Y[0]` at `YREF`, `Y[1]` at `YREF + 4` (R43, R100). -/
def storeResult (m : Memory) (yref : Word) (y : Word × Word) : Memory :=
  (m.writeWord (elementAddr yref 0) y.1).writeWord (elementAddr yref 1) y.2

end Sys2Proof.Machine
end

