-- ==== Sys2Proof/Machine/Datapath.lean ====
section
/-! DEFINITION. The pure functions of the datapath (spec 40_datapath.md): lane multiply, shift, wrapping addition, the two
reductions, conversion to binary32 and scaling. No function here reads or writes state. -/

namespace Sys2Proof.Machine

/-- `s32(w)`: the signed two's-complement value of a word (00_scope.md R7). -/
def s32 (w : Word) : Int := w.toInt

/-- `u32(w)`: the unsigned value of a word (R7). -/
def u32 (w : Word) : Nat := w.toNat

/-- `wrap32(n)`: the word whose unsigned value is `n mod 2^32` (R7). -/
def wrap32 (n : Int) : Word := BitVec.ofInt Config.dataW n

/-- The lane multiply: the low 32 bits of the exact product (R81). -/
def mul32 (a b : Word) : Word := wrap32 (s32 a * s32 b)

/-- Wrapping addition (R84). -/
def add32 (a b : Word) : Word := wrap32 (s32 a + s32 b)

/-- Arithmetic right shift by `SHIFT`: `wrap32(floor(s32(p) / 256))` (R83). Lean's `/` on integers rounds toward negative
infinity for a positive divisor. -/
def asr8 (p : Word) : Word := wrap32 (s32 p / 2 ^ Config.shift)

/-- The products of one channel: the tap of a lane multiplies the sample of the same lane (R81, R82). -/
def products (samples taps : Lanes) : Lanes := fun k => mul32 (samples k) (taps k)

/-- The shifted lanes of one channel (R83). -/
def shifted (p : Lanes) : Lanes := fun k => asr8 (p k)

/-- `FLAT`: the lanes summed left to right (R85). -/
def flat (p : Lanes) : Word :=
  add32 (add32 (add32 (add32 (add32 (add32 (add32 (p 0) (p 1)) (p 2)) (p 3)) (p 4)) (p 5)) (p 6)) (p 7)

/-- `TREE`: the lanes summed by the 3-level pairwise adder tree (R86). -/
def tree (p : Lanes) : Word :=
  add32 (add32 (add32 (p 0) (p 1)) (add32 (p 2) (p 3))) (add32 (add32 (p 4) (p 5)) (add32 (p 6) (p 7)))

/-- `round_half_even(m / 2^d)`, the nearest integer with ties to even (R89). -/
def roundHalfEven (m d : Nat) : Nat :=
  let q := m / 2 ^ d
  let rest := m % 2 ^ d
  if 2 ^ d < 2 * rest then q + 1
  else if 2 * rest = 2 ^ d then q + q % 2
  else q

/-- The binary32 pattern of sign `s`, unbiased exponent `e` and significand `q` in `[2^23, 2^24)`:
`s ++ (e+127)[7:0] ++ (q - 2^23)[22:0]` (R89, R94). -/
def packFloat (s : Bool) (e q : Nat) : Word :=
  BitVec.ofBool s ++ BitVec.ofNat 8 (e + 127) ++ BitVec.ofNat 23 (q - 2 ^ 23)

/-- The binary32 pattern of `m > 0` with sign `s`, rounded to nearest, ties to even (R89). -/
def roundMagnitude (s : Bool) (m : Nat) : Word :=
  let e := Nat.log2 m
  if e ≤ 23 then packFloat s e (m * 2 ^ (23 - e))
  else
    let q := roundHalfEven m (e - 23)
    if q = 2 ^ 24 then packFloat s (e + 1) (2 ^ 23) else packFloat s e q

/-- `rne32(n)`: the binary32 pattern nearest the integer `n`, ties to even (R89; assumption log 10). -/
def rne32 (n : Int) : Word := if n = 0 then 0#32 else roundMagnitude (decide (n < 0)) n.natAbs

/-- `scale15_bits(b)`: multiply by `SCALE` = 2^-15 by taking 15 from the exponent field (R90). -/
def scale15 (b : Word) : Word :=
  if b = 0#32 then 0#32 else b - BitVec.ofNat Config.dataW (Config.scaleLog2 * 2 ^ 23)

/-- The converter of one channel: the reduced integer converted and scaled (R89, R90, R102). -/
def convert (w : Word) : Word := scale15 (rne32 (s32 w))

end Sys2Proof.Machine
end

