-- ==== Sys2Proof/Machine/Flags.lean ====
section
/-! DEFINITION. The flags of the block: there are none (spec 10_state.md R27, 40_datapath.md R92). Overflow of a product or
a sum is "not flagged", and no floating-point exception flag is kept. -/

namespace Sys2Proof.Machine

/-- The flags, condition codes and predicates of the block: no constructor (R27). -/
inductive Flag where
  deriving DecidableEq, Repr

/-- The flags a command writes: "Flags written: none" (41_dotprod.md R101, R102, R103). -/
def flagsWritten : Instr → List Flag
  | .dotprod8 _ _ _ _ => []
  | .dotprod8Float _ _ _ _ => []
  | .dotprod8Horiz _ _ _ _ => []

end Sys2Proof.Machine
end

