-- ==== Sys2Proof/Machine/DotProd.lean ====
section
/-! DEFINITION. The three commands (spec 41_dotprod.md R100 to R103): the execution frame they share, and one meaning
each. -/

namespace Sys2Proof.Machine

/-- What a command computes: two result words from its three windows. -/
abbrev Compute := Lanes → Lanes → Lanes → Word × Word

/-- `Compute_dotprod_8` (R101): products, then the flat sum of each channel. -/
def computeDotprod8 : Compute := fun rv iv hv => (flat (products rv hv), flat (products iv hv))

/-- `Compute_dotprod_8_float` (R102): each product shifted, then the tree sum of each channel, converted and scaled. -/
def computeDotprod8Float : Compute := fun rv iv hv =>
  (convert (tree (shifted (products rv hv))), convert (tree (shifted (products iv hv))))

/-- `Compute_dotprod_8_horiz` (R103): products, then the tree sum of each channel. -/
def computeDotprod8Horiz : Compute := fun rv iv hv => (tree (products rv hv), tree (products iv hv))

/-- Host memory after a command that passes its checks: all 24 reads see memory as it was before, and both writes take
effect together (20_memory.md R49, 41_dotprod.md R100). -/
def resultMemory (compute : Compute) (m : Memory) (r i h y : Word) : Memory :=
  storeResult m y (compute (loadWindow m r) (loadWindow m i) (loadWindow m h))

/-- The execution frame of every command (R100): only when `Idle`; the checks in their order, the first that fails deciding
the fault; then the reads, the computation and the two writes, `phase` staying `Idle`. -/
def runCommand (compute : Compute) (r i h y : Word) (b : BlockState) : Host.Outcome BlockState Fault Refusal :=
  whenIdle b.phase
    (match checkReferences b.mem r i h y with
    | some cause => takeFault cause b
    | none => .next { b with mem := resultMemory compute b.mem r i h y })

/-- An illegal command on the state of R31: it raises `ILLEGAL_COMMAND(w0)`, its references not examined (30_encoding.md
R64, R67, 60_exceptions.md R122). -/
def runIllegal (w0 : Word) (b : BlockState) : Host.Outcome BlockState Fault Refusal :=
  whenIdle b.phase (takeFault (.illegalCommand w0) b)

/-- `dotprod_8` (R101). -/
def execDotprod8 (r i h y : Word) (s : State) : Host.Outcome State Fault Refusal :=
  onBlock (runCommand computeDotprod8 r i h y) s

/-- `dotprod_8_float` (R102). -/
def execDotprod8Float (r i h y : Word) (s : State) : Host.Outcome State Fault Refusal :=
  onBlock (runCommand computeDotprod8Float r i h y) s

/-- `dotprod_8_horiz` (R103). -/
def execDotprod8Horiz (r i h y : Word) (s : State) : Host.Outcome State Fault Refusal :=
  onBlock (runCommand computeDotprod8Horiz r i h y) s

/-- An illegal command (R64, R67, R122). -/
def execIllegal (w0 : Word) (s : State) : Host.Outcome State Fault Refusal :=
  onBlock (runIllegal w0) s

end Sys2Proof.Machine
end

