-- ==== Sys2Proof/Machine/Dispatch.lean ====
section
/-! DEFINITION. One arm per command (spec 30_encoding.md R62), each one call of its meaning. -/

namespace Sys2Proof.Machine

-- The whole command set of the block (60_exceptions.md R133).
def exec (i : Instr) (s : State) : Host.Outcome State Fault Refusal :=
  match i with
  | .dotprod8 rr ri rh ry => Sys2Proof.Machine.execDotprod8 rr ri rh ry s
  | .dotprod8Float rr ri rh ry => Sys2Proof.Machine.execDotprod8Float rr ri rh ry s
  | .dotprod8Horiz rr ri rh ry => Sys2Proof.Machine.execDotprod8Horiz rr ri rh ry s

end Sys2Proof.Machine
end

