-- ==== Sys2Proof/Machine/Execute.lean ====
section
/-! DEFINITION. One delivered command (spec 41_dotprod.md R100): decode, then its meaning, or the illegal-command fault; and
what the step function does with the block's phase and the host's command list. -/

namespace Sys2Proof.Machine

/-- `Execute(w0, w1, w2, w3, w4)` of R100. -/
def execute (c : Cmd5) (s : State) : Host.Outcome State Fault Refusal :=
  match decode c with
  | .command i => exec i s
  | .illegal w0 => execIllegal w0 s

/-- One step: enabled only when `phase = Idle` and the host has delivered a command (R100); it takes that command, moves
to the next (R150), and executes it. -/
def stepCommand (s : State) : Host.Outcome State Fault Refusal :=
  whenIdle s.phase
    (match s.nextCommand with
    | none => .refused .noCommand
    | some c => execute c s.advance)

/-- `s` with the command whose bits are the low `nbits` bits of `w` where the next step takes its command from, and the
block ready to take it (assumption log 8). -/
def placeTableWord (s : State) (nbits w : Nat) : State :=
  match takeCmd5 (tableBytes nbits w) with
  | some (c, _) => s.placeCommand c
  | none => s

end Sys2Proof.Machine
end

