-- ==== Sys2Proof/Machine/Step.lean ====
section
/-! DEFINITION. The step function (spec 41_dotprod.md R100), and how the pipeline's host delivers one command to it. -/

namespace Sys2Proof.Machine

/-- One step of the block: one command, atomically (20_memory.md R49). -/
def step (s : State) : Host.Outcome State Fault Refusal := stepCommand s

/-- `s` with one command delivered, so that the very next step takes and executes exactly it (assumption log 8). -/
def State.withFetchWord (s : State) (nbits w : Nat) : State := placeTableWord s nbits w

end Sys2Proof.Machine
end

