-- ==== Sys2Proof/Machine/Assembler.lean ====
section
/-! DEFINITION. The spec's assembler syntax (30_encoding.md R68): text lines to command words. It is not part of the
machine; it is here so that a program written as the spec writes it can be read. No mnemonic expands to more than one command
(R69). What R68 leaves open is in the assumption log: lexical details 22, commands from lines 23, the operand of `.word` 24. -/

namespace Sys2Proof.Asm

/-- An operand as written: an address literal, or a label that stands for one (R68). -/
inductive Operand where
  | addr (n : Nat)
  | label (name : List Char)
  deriving DecidableEq, Repr

/-- One line, after its comment is taken off. -/
inductive Line where
  /-- Nothing but blanks or a comment. -/
  | blank
  /-- A mnemonic and its four references: real, imaginary, taps, output. -/
  | command (cmd : Word) (r i h y : Operand)
  /-- `.word <v>`: raw 32-bit words, one or more (Program 3 of 95_test_vectors.md lists four). R68 gives `<v>` no form: that it is
  an `Operand`, and so may be a label, is the model's (DESIGN CHOICE, assumption log 24). -/
  | words (vs : List Operand)
  deriving DecidableEq, Repr

/-- A space or a tab. -/
def isBlank (c : Char) : Bool := c == ' ' || c == '\t'

/-- Text without the blanks at its ends. -/
def trim (t : List Char) : List Char := ((t.dropWhile isBlank).reverse.dropWhile isBlank).reverse

/-- "A `;` starts a comment" (R68). -/
def withoutComment (t : List Char) : List Char := t.takeWhile (· != ';')

/-- Text cut at its commas. -/
def cutAtCommas : List Char → List (List Char)
  | [] => [[]]
  | c :: t =>
    if c == ',' then [] :: cutAtCommas t
    else
      match cutAtCommas t with
      | [] => [[c]]
      | part :: parts => (c :: part) :: parts

/-- The value of a digit in a base of at most 16. -/
def digit (base : Nat) (c : Char) : Option Nat :=
  let v :=
    if '0' ≤ c ∧ c ≤ '9' then c.toNat - '0'.toNat
    else if 'a' ≤ c ∧ c ≤ 'f' then c.toNat - 'a'.toNat + 10
    else if 'A' ≤ c ∧ c ≤ 'F' then c.toNat - 'A'.toNat + 10
    else base
  if v < base then some v else none

/-- Digits, most significant first, onto an accumulated value. -/
def digits (base : Nat) : List Char → Nat → Option Nat
  | [], acc => some acc
  | c :: t, acc =>
    match digit base c with
    | none => none
    | some v => digits base t (acc * base + v)

/-- An unsigned literal, "decimal, or hex with `0x`" (R68); the letter case is assumption log 22's. -/
def literal : List Char → Option Nat
  | '0' :: 'x' :: c :: t => digits 16 (c :: t) 0
  | [] => none
  | c :: t => digits 10 (c :: t) 0

/-- One operand: a text that begins with a decimal digit is a literal, any other is a label. R68 does not say how
the two are told apart (DESIGN CHOICE, assumption log 22). -/
def operand (t : List Char) : Option Operand :=
  match trim t with
  | [] => none
  | c :: rest =>
    if '0' ≤ c ∧ c ≤ '9' then (literal (c :: rest)).map .addr
    else some (.label (c :: rest))

/-- All operands of a line, or none if one will not do. -/
def operands (parts : List (List Char)) : Option (List Operand) := parts.mapM operand

/-- The mnemonics (R68) and their `CMD` words (R62). -/
def mnemonics : List (List Char × Word) :=
  [("dotprod_8".toList, cmdDotprod8), ("dotprod_8_float".toList, cmdDotprod8Float),
    ("dotprod_8_horiz".toList, cmdDotprod8Horiz)]

/-- One line of text (R68). A `.word` line's values are read as the reference operands are, so each is a literal or a label:
R68 names a label for the four reference operands alone and gives `<v>` no form, so the label there is the model's
(DESIGN CHOICE, assumption log 24). -/
def parseLine (text : List Char) : Option Line :=
  match trim (withoutComment text) with
  | [] => some .blank
  | t =>
    let head := t.takeWhile (fun c => !isBlank c)
    let args := operands (cutAtCommas (t.dropWhile (fun c => !isBlank c)))
    if head = ".word".toList then args.map .words
    else
      match mnemonics.lookup head, args with
      | some cmd, some [r, i, h, y] => some (.command cmd r i h y)
      | _, _ => none

/-- The word of an operand: a literal below 2^32, or what its label stands for by a table from outside (assumption log 22). -/
def resolve (labels : List (List Char × Word)) : Operand → Option Word
  | .addr n => if n < 2 ^ 32 then some (BitVec.ofNat 32 n) else none
  | .label name => labels.lookup name

/-- The words a line emits: five for a command, in the order of R60; as many as written for `.word`. -/
def lineWords (labels : List (List Char × Word)) : Line → Option (List Word)
  | .blank => some []
  | .command cmd r i h y => ([r, i, h, y].mapM (resolve labels)).map (cmd :: ·)
  | .words vs => vs.mapM (resolve labels)

/-- The words a program emits, line after line. -/
def assemble (labels : List (List Char × Word)) : List (List Char) → Option (List Word)
  | [] => some []
  | t :: ts =>
    match parseLine t with
    | none => none
    | some l =>
      match lineWords labels l, assemble labels ts with
      | some ws, some rest => some (ws ++ rest)
      | _, _ => none

/-- Words as commands of five, in the order they come (R60); none if the last is cut short. R68 frames no command by its
lines: that the flat word stream is cut at every fifth word, whichever lines the words are from, is the model's (DESIGN
CHOICE, assumption log 23). -/
def commandsOfWords : List Word → Option (List Cmd5)
  | [] => some []
  | w0 :: w1 :: w2 :: w3 :: w4 :: rest => (commandsOfWords rest).map (⟨w0, w1, w2, w3, w4⟩ :: ·)
  | _ :: _ => none

/-- A program's text as a host command list (R149). Its lines' words are first joined and then cut by fives, so `.word`
lines that do not fill a command take words from the line after them, and a mnemonic's five words can then fall in two
commands: R68 leaves this open and the choice is the model's (DESIGN CHOICE, assumption log 23). -/
def program (labels : List (List Char × Word)) (lines : List String) : Option (List Cmd5) :=
  match assemble labels (lines.map String.toList) with
  | none => none
  | some ws => commandsOfWords ws

end Sys2Proof.Asm
end

