-- ==== Sys2Proof/Machine/Binary32.lean ====
section
/-! DEFINITION. What a binary32 pattern denotes (spec 40_datapath.md R94). The datapath works on patterns alone; the
statements about rounding, scaling and range are read through this. -/

namespace Sys2Proof.Machine

/-- The sign bit `b[31]` (R94). -/
def signBit (b : Word) : Bool := b.getLsbD 31

/-- The biased exponent field `b[30:23]` (R94). -/
def exponentField (b : Word) : Nat := (b.extractLsb' 23 8).toNat

/-- The fraction field `b[22:0]` (R94). -/
def fractionField (b : Word) : Nat := (b.extractLsb' 0 23).toNat

/-- A pattern with exponent field in 1..254: a normal number (R94). -/
abbrev IsNormal (b : Word) : Prop := 1 ≤ exponentField b ∧ exponentField b ≤ 254

/-- The number a pattern denotes: `(-1)^b[31] * 2^(E-127) * (1 + b[22:0]/2^23)` for a normal pattern, 0 for a zero of
either sign; none for every other encoding (infinity, NaN, subnormal), which "can not arise in this block" (R94, R91). -/
def valueOf (b : Word) : Option Rat :=
  if 1 ≤ exponentField b ∧ exponentField b ≤ 254 then
    some ((if signBit b then -1 else 1) * (2 : Rat) ^ ((exponentField b : Int) - 127) *
      (1 + (fractionField b : Rat) / 2 ^ 23))
  else if exponentField b = 0 ∧ fractionField b = 0 then some 0
  else none

end Sys2Proof.Machine
end

