-- ==== Sys2Proof/WellFormed.lean ====
section
/-! DEFINITION. The part of the caller's contract that a command's own words decide: every reference aligned, no range past
the top of the address space, the output range apart from the input ranges (spec 20_memory.md R44, R45, R47;
70_reset_and_hazards.md R143). Whether the bytes are admitted (R46) depends on memory and is not decided here.

A command that breaks the contract still decodes (R65: "Any 32-bit value is a legal reference word") and its meaning takes
the fault the spec names; being well-formed is not needed to be encoded (assumption log 21). -/

namespace Sys2Proof

/-- A reference that is a multiple of 4 (R44). -/
abbrev Word.Aligned (x : Word) : Prop := x.toNat % Config.refAlign = 0

/-- A range of `n` bytes that does not pass the top of the address space (R45), on unbounded integers. -/
abbrev Word.InSpace (x : Word) (n : Nat) : Prop := x.toNat + n ≤ Config.addrSpace

/-- The output range at `y` and the input window at `x` share no byte (R47). -/
abbrev OutputApart (y x : Word) : Prop :=
  y.toNat + Config.resultBytes ≤ x.toNat ∨ x.toNat + Config.windowBytes ≤ y.toNat

/-- Every reference of the command is aligned (R44). -/
abbrev Instr.RefsAligned (i : Instr) : Prop :=
  Word.Aligned i.rref ∧ Word.Aligned i.iref ∧ Word.Aligned i.href ∧ Word.Aligned i.yref

/-- No range of the command passes the top of the address space (R45). -/
abbrev Instr.RangesInSpace (i : Instr) : Prop :=
  Word.InSpace i.rref Config.windowBytes ∧ Word.InSpace i.iref Config.windowBytes ∧
    Word.InSpace i.href Config.windowBytes ∧ Word.InSpace i.yref Config.resultBytes

/-- The output range overlaps no input range (R47). -/
abbrev Instr.OutputDisjoint (i : Instr) : Prop :=
  OutputApart i.yref i.rref ∧ OutputApart i.yref i.iref ∧ OutputApart i.yref i.href

/-- The command keeps the part of the caller's contract that its own words decide (R143, steps 1 and 2). -/
abbrev Instr.WellFormed (i : Instr) : Prop :=
  i.RefsAligned ∧ i.RangesInSpace ∧ i.OutputDisjoint

end Sys2Proof
end

