-- ==== Sys2Proof/Safety.lean ====
section
/-! DEFINITION. The terms claims are made in: the caller's contract (spec 70_reset_and_hazards.md R143), which fault a
command raises (60_exceptions.md R121 to R126) said without the machine's own checks, runs and how they end (R149, R150), and
the invariant of the machine. -/

namespace Sys2Proof.Machine

/-- Every byte of `[x, x+n)` is admitted (20_memory.md R46). -/
abbrev AdmittedRange (m : Memory) (x : Word) (n : Nat) : Prop :=
  ∀ j < n, m.admits (x.toNat + j) = true

/-- Address `a` lies in the 8 bytes of the result at `y`: `[YREF, YREF+8)` (R42). -/
abbrev InResult (y : Word) (a : Nat) : Prop := y.toNat ≤ a ∧ a < y.toNat + Config.resultBytes

/-- Address `a` lies in the 32 bytes of the input window at `x` (R42). -/
abbrev InWindow (x : Word) (a : Nat) : Prop := x.toNat ≤ a ∧ a < x.toNat + Config.windowBytes

/-- The caller's contract of a command (R143, steps 1 and 2; R120 calls such a command well-formed): its references
aligned, in the address space and admitted, its output apart from its inputs. -/
abbrev CallerContract (m : Memory) (i : Instr) : Prop :=
  i.WellFormed ∧ AdmittedRange m i.rref Config.windowBytes ∧ AdmittedRange m i.iref Config.windowBytes ∧
    AdmittedRange m i.href Config.windowBytes ∧ AdmittedRange m i.yref Config.resultBytes

/-- A `CMD` word that is illegal by its fields: "`CMD[1:0] = 3` or `CMD[31:2] != 0`" (30_encoding.md R64). -/
abbrev IllegalCmd (w0 : Word) : Prop := opField w0 = 3 ∨ rsvField w0 ≠ 0

/-- `x` is the first entry of the list that fails: it fails and no entry before it does. -/
def FirstFailing {α : Type} (fails : α → Prop) (l : List α) (x : α) : Prop :=
  ∃ before after, l = before ++ x :: after ∧ fails x ∧ ∀ z ∈ before, ¬ fails z

/-- The four references of a command's words, in the order of R123. -/
def Cmd5.refs (c : Cmd5) : List Word := [c.rref, c.iref, c.href, c.yref]

/-- The four ranges of a command's words, in the order of R124. -/
def Cmd5.ranges (c : Cmd5) : List (Word × Nat) := [(c.rref, 32), (c.iref, 32), (c.href, 32), (c.yref, 8)]

/-- The three input references of a command's words, in the order of R125. -/
def Cmd5.inputs (c : Cmd5) : List Word := [c.rref, c.iref, c.href]

/-- A range that passes 2^32 or holds a byte the host did not admit (R124). -/
def Inaccessible (m : Memory) (p : Word × Nat) : Prop :=
  2 ^ 32 < p.1.toNat + p.2 ∨ ∃ j < p.2, m.admits (p.1.toNat + j) = false

/-- The output range at `y` shares a byte with the input window at `x` (R47, R125). -/
def SharesByte (y x : Word) : Prop := ∃ a, InResult y a ∧ InWindow x a

/-- The fault a command raises in a memory, said as R121 to R126 say it: the cause, its recorded value, and that no cause
before it in the order of R126 applies. -/
def CommandFault (m : Memory) (c : Cmd5) : FaultCause → Prop
  | .illegalCommand w => w = c.cmd ∧ IllegalCmd c.cmd
  | .misalignedReference x =>
    ¬ IllegalCmd c.cmd ∧ FirstFailing (fun z => z.toNat % 4 ≠ 0) (Cmd5.refs c) x
  | .accessFault x =>
    ¬ IllegalCmd c.cmd ∧ (∀ z ∈ Cmd5.refs c, z.toNat % 4 = 0) ∧
      ∃ n, FirstFailing (Inaccessible m) (Cmd5.ranges c) (x, n)
  | .outputAlias x =>
    ¬ IllegalCmd c.cmd ∧ (∀ z ∈ Cmd5.refs c, z.toNat % 4 = 0) ∧ (∀ p ∈ Cmd5.ranges c, ¬ Inaccessible m p) ∧
      FirstFailing (SharesByte c.yref) (Cmd5.inputs c) x

/-- The start of a run: a host command list, a host memory, and an `Idle` block (R149). -/
def State.startRun (cs : List Cmd5) (m : Memory) : State where
  phase := .idle
  mem := m
  program := cs
  index := 0

/-- A run that has ended successfully: "all n commands have executed and `phase = Idle`" (R150). -/
abbrev State.Succeeded (s : State) : Prop := s.phase = .idle ∧ s.index = s.program.length

/-- A run that has failed: some command faulted (R150). -/
abbrev State.Failed (s : State) : Prop := s.phase ≠ .idle

/-- What the host can read off the block about its fault record: the open parameter `FAULT_REPORT` (R128; assumption log
14). -/
def State.hostView (s : State) : List Word :=
  Config.faultReport
    (match s.phase with
    | .idle => none
    | .faulted cause => some (cause.code, cause.recorded))

/-- The fault record says why: a faulted block has taken a command, and the last command it took raises the recorded fault
in the memory as it stands (R121, R127). -/
def State.FaultExplained (s : State) : Prop :=
  ∀ cause, s.phase = .faulted cause → ∃ n c, s.index = n + 1 ∧ s.program[n]? = some c ∧ CommandFault s.mem c cause

/-- The invariant: memory is in canonical form, the index has not run past the list, and the fault record is explained. -/
def State.Inv (s : State) : Prop :=
  s.mem.wf = true ∧ s.index ≤ s.program.length ∧ s.FaultExplained

/-- One way of adding up lanes: an order and a grouping of additions (40_datapath.md R87). -/
inductive SumTree where
  | lane (k : Fin Config.nLanes)
  | add (l r : SumTree)
  deriving DecidableEq, Repr

/-- The word a way of adding gives, each addition by `add32` (R84). -/
def SumTree.eval (p : Lanes) : SumTree → Word
  | .lane k => p k
  | .add l r => add32 (l.eval p) (r.eval p)

/-- The lanes it adds, in its order. -/
def SumTree.lanes : SumTree → List (Fin Config.nLanes)
  | .lane k => [k]
  | .add l r => l.lanes ++ r.lanes

/-- The exact sum of the lanes' signed values, before any wrapping. -/
def laneSum (p : Lanes) : Int := ∑ k, s32 (p k)

/-- The exact sum of the 8 lane products of two windows in memory, at references `x` (samples) and `h` (taps). -/
def windowDot (m : Memory) (x h : Word) : Int :=
  ∑ k : Fin Config.nLanes, s32 (m.readWord (x.toNat + 4 * k)) * s32 (m.readWord (h.toNat + 4 * k))

/-- The sum of the 8 lane products kept to 32 bits, each divided by 256 rounding toward negative infinity: the float
command's integer path (R83, R105). -/
def windowShiftedDot (m : Memory) (x h : Word) : Int :=
  ∑ k : Fin Config.nLanes,
    s32 (wrap32 (s32 (m.readWord (x.toNat + 4 * k)) * s32 (m.readWord (h.toNat + 4 * k)))) / 256

/-- The result word a command owes for one channel, samples at `x` and taps at `h`, from the exact sums of memory's words
(R101, R102, R103). -/
def resultWord (i : Instr) (m : Memory) (x h : Word) : Word :=
  match i with
  | .dotprod8 _ _ _ _ => wrap32 (windowDot m x h)
  | .dotprod8Float _ _ _ _ => scale15 (rne32 (windowShiftedDot m x h))
  | .dotprod8Horiz _ _ _ _ => wrap32 (windowDot m x h)

/-- `b` denotes the binary32 number nearest to `x`: no binary32 number is nearer, and where another is as near, `b` is the
one with the even significand (R89). -/
def NearestEven (b : Word) (x : Rat) : Prop :=
  ∃ v, valueOf b = some v ∧
    ∀ b' v', valueOf b' = some v' →
      |v - x| ≤ |v' - x| ∧ (|v' - x| = |v - x| → v' ≠ v → fractionField b % 2 = 0)

end Sys2Proof.Machine
end

