-- ==== Sys2Proof/Certificates/Slice0/Obligations.lean ====
section
/-! DEFINITION. The statements for the provers, from the numbered rules of spec/. -/

open Sys2Proof Sys2Proof.Machine

/-! Reset, phase and the step. -/

/-- R140: "After reset, `phase = Idle` and no command is outstanding." Reset leaves `Faulted` and writes no host memory, and
no step leaves `Faulted`. -/
def Obligations.ResetLeavesFaultedAndIsTheOnlyWay : Prop :=
  State.reset.phase = .idle ∧ State.reset.outstanding = [] ∧
  (∀ s : State, s.blockReset.phase = .idle ∧ s.blockReset.outstanding = [] ∧ s.blockReset.mem = s.mem) ∧
  ∀ (s : State) (cause : FaultCause), s.phase = .faulted cause → ∀ t, step s ≠ .next t

/-- R100: the step "is enabled only when `phase = Idle` and the host has delivered a command", and then it is. -/
def Obligations.StepEnabledIffIdleAndDelivered : Prop :=
  ∀ s : State, (∃ t, step s = .next t) ↔ s.phase = .idle ∧ s.index < s.program.length

/-- R100, R127: "In `Faulted` the block has no step", whatever command comes next. The name of the stop is the model's
(assumption log 4). -/
def Obligations.FaultedBlockHasNoStep : Prop :=
  ∀ (s : State) (cause : FaultCause), s.phase = .faulted cause →
    step s = .fault (.blockFaulted cause) ∧ (∀ i, exec i s = .fault (.blockFaulted cause)) ∧
      ∀ c, execute c s = .fault (.blockFaulted cause)

/-- A step executes the next five words, whatever they are (R100, R67): the command they decode to, or the
`ILLEGAL_COMMAND` fault with the word recorded (R64, R122). That the index has then moved past them, also when they fault, is
the model's choice (assumption log 2). -/
def Obligations.StepRunsTheDecodedCommand : Prop :=
  ∀ (s : State) (c : Cmd5), s.phase = .idle → s.program[s.index]? = some c →
    step s = execute c { s with index := s.index + 1 } ∧
    (∀ i, decode c = .command i → step s = exec i { s with index := s.index + 1 }) ∧
    ∀ w, decode c = .illegal w →
      step s = .next { s with phase := .faulted (.illegalCommand w), index := s.index + 1 }

/-- R31: a command, legal or not, is a function of `phase` and `mem` alone; the command list and its index, which the model
carries beside them (assumption log 1), decide nothing of what it does to them and are left as they were. -/
def Obligations.CommandsActOnPhaseAndMemoryAlone : Prop :=
  ∀ (s : State) (c : Cmd5) (program : List Cmd5) (index : Nat),
    (∀ t, execute c s = .next t → t.program = s.program ∧ t.index = s.index ∧
      execute c { s with program := program, index := index } = .next { t with program := program, index := index }) ∧
    ∀ r, execute c s = .fault r → execute c { s with program := program, index := index } = .fault r

/-- A command placed as a word of the opcode table is the one the next step runs, from every state (assumption log 8). -/
def Obligations.PlacedWordIsTheOneRun : Prop :=
  ∀ (s : State) (nbits w : Nat) (i : Instr), decodeTableWord nbits w = some i →
    step (s.withFetchWord nbits w) = exec i (s.withFetchWord nbits w).advance ∧
      (s.withFetchWord nbits w).mem = s.mem ∧ (s.withFetchWord nbits w).index = s.index

/-- R64, R122: a `CMD` word is illegal by its fields exactly when it is not 0, 1 or 2; such a command raises
`ILLEGAL_COMMAND`, recording the word, whatever its references are, and changes nothing else. -/
def Obligations.IllegalCommandRaisesItsFault : Prop :=
  ∀ (s : State) (c : Cmd5), s.phase = .idle →
    (IllegalCmd c.cmd ↔ c.cmd ≠ 0#32 ∧ c.cmd ≠ 1#32 ∧ c.cmd ≠ 2#32) ∧
    (IllegalCmd c.cmd → execute c s = .next { s with phase := .faulted (.illegalCommand c.cmd) })

/-! Encoding. -/

/-- Words written out from the spec's encodings (R62, R64, R66; Program 1 of 95_test_vectors.md as bytes). -/
def Obligations.SpecWordsDecode : Prop :=
  decodeBytes [0x00, 0x00, 0x00, 0x00, 0x00, 0x10, 0x00, 0x00, 0x20, 0x10, 0x00, 0x00, 0x40, 0x10, 0x00, 0x00, 0x60, 0x10,
    0x00, 0x00] = .command (.dotprod8 0x1000#32 0x1020#32 0x1040#32 0x1060#32) [] ∧
  decode ⟨0x00000001#32, 0x2000#32, 0x2040#32, 0x2080#32, 0x2100#32⟩ =
    .command (.dotprod8Float 0x2000#32 0x2040#32 0x2080#32 0x2100#32) ∧
  decode ⟨0x00000002#32, 0x3060#32, 0x3080#32, 0x3040#32, 0x3100#32⟩ =
    .command (.dotprod8Horiz 0x3060#32 0x3080#32 0x3040#32 0x3100#32) ∧
  decode ⟨0x00000003#32, 0#32, 0#32, 0#32, 0#32⟩ = .illegal 0x00000003#32 ∧
  decode ⟨0x80000001#32, 0#32, 0#32, 0#32, 0#32⟩ = .illegal 0x80000001#32

/-- Decode and encode agree, both ways and for every command: the 20 bytes of a command decode to it with every operand bit
kept, and the only bytes that decode to a command are that command's 20 bytes (R66, R67). -/
def Obligations.DecodeAndEncodeAgree : Prop :=
  (∀ (i : Instr) (rest : List Byte), decodeBytes (encodeBytes i ++ rest) = .command i rest) ∧
  (∀ (bs : List Byte) (i : Instr) (rest : List Byte), decodeBytes bs = .command i rest → bs = encodeBytes i ++ rest) ∧
  ∀ (bs : List Byte), decodeBytes bs = .truncated ↔ bs.length < 20

/-- R68: a line of assembler text emits the five words of its command; `.word` emits raw words (Program 3 of
95_test_vectors.md). -/
def Obligations.AssemblerEmitsTheCommandWords : Prop :=
  Asm.program [("taps".toList, 0x3040#32)]
    ["        dotprod_8       0x3000, 0x3020, 0x3040, 0x3080   ; a comment", "dotprod_8_horiz 12384,0x3080,taps,0x3100",
      "dotprod_8_float 0x3060, 0x3080, taps, 0x3100", ".word 0x00000003", ".word 0x00003000, 0x00003020, 0x00003040, 0x00003108"] =
    some [encode (.dotprod8 0x3000#32 0x3020#32 0x3040#32 0x3080#32),
      encode (.dotprod8Horiz 0x3060#32 0x3080#32 0x3040#32 0x3100#32),
      encode (.dotprod8Float 0x3060#32 0x3080#32 0x3040#32 0x3100#32),
      ⟨0x00000003#32, 0x00003000#32, 0x00003020#32, 0x00003040#32, 0x00003108#32⟩]

/-! The results of the three commands: each completes whenever its caller keeps the contract. -/

/-- `dotprod_8` (R100, R101): on an idle block and under the caller's contract it completes; the words at `YREF` and
`YREF + 4` are the exact sums of the lane products, taken modulo 2^32; every other byte of memory, the phase, the command
list and the index are unchanged. -/
def Obligations.Dotprod8WritesTheWrappedSums : Prop :=
  ∀ (s : State) (r i h y : Word), s.phase = .idle → CallerContract s.mem (.dotprod8 r i h y) →
    ∃ m, exec (.dotprod8 r i h y) s = .next { s with mem := m } ∧
      m.readWord y.toNat = wrap32 (windowDot s.mem r h) ∧ m.readWord (y.toNat + 4) = wrap32 (windowDot s.mem i h) ∧
      ∀ a, ¬ InResult y a → m.read a = s.mem.read a

/-- `dotprod_8_horiz` (R100, R103): as `dotprod_8`, the reduction being the adder tree. -/
def Obligations.Dotprod8HorizWritesTheWrappedSums : Prop :=
  ∀ (s : State) (r i h y : Word), s.phase = .idle → CallerContract s.mem (.dotprod8Horiz r i h y) →
    ∃ m, exec (.dotprod8Horiz r i h y) s = .next { s with mem := m } ∧
      m.readWord y.toNat = wrap32 (windowDot s.mem r h) ∧ m.readWord (y.toNat + 4) = wrap32 (windowDot s.mem i h) ∧
      ∀ a, ¬ InResult y a → m.read a = s.mem.read a

/-- `dotprod_8_float` (R100, R102): it completes; each result word is the converted and scaled sum of the lane products,
each kept to 32 bits and divided by 256 rounding down before the sum; every other byte of memory, the phase, the command
list and the index are unchanged. -/
def Obligations.Dotprod8FloatWritesTheScaledSums : Prop :=
  ∀ (s : State) (r i h y : Word), s.phase = .idle → CallerContract s.mem (.dotprod8Float r i h y) →
    ∃ m, exec (.dotprod8Float r i h y) s = .next { s with mem := m } ∧
      m.readWord y.toNat = scale15 (rne32 (windowShiftedDot s.mem r h)) ∧
      m.readWord (y.toNat + 4) = scale15 (rne32 (windowShiftedDot s.mem i h)) ∧
      ∀ a, ¬ InResult y a → m.read a = s.mem.read a

/-- The float command's result as numbers (R90, R91, R102): each word denotes the binary32 number nearest, ties to even, to
the exact shifted sum divided by 32768, and is never -0.0. Rounding to even is the spec's decision D15 (assumption log 10);
the patterns are read through `valueOf`, whose layout is presumed (assumption log 18). -/
def Obligations.Dotprod8FloatIsTheNearestFloat : Prop :=
  ∀ (s : State) (r i h y : Word), s.phase = .idle → CallerContract s.mem (.dotprod8Float r i h y) →
    ∃ t, exec (.dotprod8Float r i h y) s = .next t ∧
      NearestEven (t.mem.readWord y.toNat) (windowShiftedDot s.mem r h / 32768) ∧
      NearestEven (t.mem.readWord (y.toNat + 4)) (windowShiftedDot s.mem i h / 32768) ∧
      t.mem.readWord y.toNat ≠ 0x80000000#32 ∧ t.mem.readWord (y.toNat + 4) ≠ 0x80000000#32

/-- "All taps 0 gives (0, 0)" for all three commands, whatever the samples (R101, R102, R103; the source's property 4). -/
def Obligations.ZeroTapsGiveZero : Prop :=
  ∀ (s : State) (i : Instr), s.phase = .idle → CallerContract s.mem i →
    (∀ a, InWindow i.href a → s.mem.read a = some 0) →
    ∃ t, exec i s = .next t ∧ t.mem.readWord i.yref.toNat = 0#32 ∧ t.mem.readWord (i.yref.toNat + 4) = 0#32

/-- "`RREF = IREF` gives Y[0] = Y[1]" for all three commands (R101). -/
def Obligations.SameSamplesGiveEqualHalves : Prop :=
  ∀ (s : State) (i : Instr), s.phase = .idle → CallerContract s.mem i → i.rref = i.iref →
    ∃ t, exec i s = .next t ∧ t.mem.readWord i.yref.toNat = t.mem.readWord (i.yref.toNat + 4)

/-! Faults. -/

/-- R122 to R126: a command delivered to an idle block raises a fault exactly when the rules say so, the recorded value
being the first that fails; at most one fault applies; and taking it sets `phase` and changes nothing else (R127). For codes
2 to 4 that next state, with memory unchanged, is the model's convention and no claim about the hardware (assumption log 3). -/
def Obligations.FaultsAreExactlyTheSpecifiedOnes : Prop :=
  ∀ (s : State) (c : Cmd5), s.phase = .idle →
    (∀ cause, execute c s = .next { s with phase := .faulted cause } ↔ CommandFault s.mem c cause) ∧
    ∀ cause cause', CommandFault s.mem c cause → CommandFault s.mem c cause' → cause = cause'

/-- R120, R143: a command on an idle block completes exactly when its caller keeps the contract, and otherwise it faults
(R151: "Every `Execute` either completes or faults in one step"). -/
def Obligations.CompletesExactlyUnderTheContract : Prop :=
  ∀ (s : State) (i : Instr), s.phase = .idle →
    (CallerContract s.mem i ↔ ∃ t, exec i s = .next t ∧ t.phase = .idle) ∧
    (¬ CallerContract s.mem i ↔ ∃ t cause, exec i s = .next t ∧ t.phase = .faulted cause)

/-- R44, R123: a misaligned reference is reported by the first that is misaligned, in the order RREF, IREF, HREF, YREF,
whatever else is wrong with the command. That everything but `phase` is then unchanged is the model's convention for code 2
and no claim about the hardware (R127; assumption log 3). -/
def Obligations.MisalignedReferenceIsReportedFirst : Prop :=
  ∀ (s : State) (i : Instr) (x : Word), s.phase = .idle →
    FirstFailing (fun z : Word => z.toNat % 4 ≠ 0) [i.rref, i.iref, i.href, i.yref] x →
    exec i s = .next { s with phase := .faulted (.misalignedReference x) }

/-- R139: "Arithmetic overflow is never a fault." No value in memory decides a fault: on two idle states that admit the same
addresses, a command takes the same fault or completes on both. -/
def Obligations.DataNeverDecidesAFault : Prop :=
  ∀ (s s' : State) (i : Instr), s.phase = .idle → s'.phase = .idle → (∀ a, s.mem.admits a = s'.mem.admits a) →
    ∃ t t', exec i s = .next t ∧ exec i s' = .next t' ∧ t.phase = t'.phase

/-! Frames and isolation. -/

/-- What every command leaves unchanged when it answers a next state (R48, R127): the command list and the index; every
byte outside the 8 result bytes at its `YREF`; every byte of its input windows when it completes; all of memory when it
faults (the model's convention for codes 2 to 4, assumption log 3). -/
def Obligations.CommandsLeaveAllElseUnchanged : Prop :=
  ∀ (i : Instr) (s t : State), exec i s = .next t →
    t.program = s.program ∧ t.index = s.index ∧
    (∀ a, ¬ InResult i.yref a → t.mem.read a = s.mem.read a) ∧
    (t.phase = .idle → ∀ a, InWindow i.rref a ∨ InWindow i.iref a ∨ InWindow i.href a → t.mem.read a = s.mem.read a) ∧
    (t.phase ≠ .idle → t.mem = s.mem)

/-- R40, R56: no step changes which addresses are admitted, nor any command already delivered. That the index moves by one
is the model's bookkeeping (assumption log 2). -/
def Obligations.StepKeepsAdmittedSetAndCommands : Prop :=
  ∀ s t : State, step s = .next t →
    (∀ a, t.mem.admits a = s.mem.admits a) ∧ t.program = s.program ∧ t.index = s.index + 1

/-- R20, R82: the result words depend on nothing but the command's own windows, and each channel on its own samples and the
taps: two idle states whose memories agree on the real window and the taps give the same `Y[0]`; on the imaginary window and
the taps, the same `Y[1]`. -/
def Obligations.ResultDependsOnItsWindowsAlone : Prop :=
  ∀ (s s' t t' : State) (i : Instr), CallerContract s.mem i → CallerContract s'.mem i →
    exec i s = .next t → exec i s' = .next t' →
    ((∀ a, InWindow i.rref a ∨ InWindow i.href a → s.mem.read a = s'.mem.read a) →
      t.mem.readWord i.yref.toNat = t'.mem.readWord i.yref.toNat) ∧
    ((∀ a, InWindow i.iref a ∨ InWindow i.href a → s.mem.read a = s'.mem.read a) →
      t.mem.readWord (i.yref.toNat + 4) = t'.mem.readWord (i.yref.toNat + 4))

/-- R41: a word is stored little-endian: after a word write at four admitted addresses the word reads back, byte `a + j`
holds bits `[8j+7 : 8j]`, and every other byte is unchanged. -/
def Obligations.WordsAreStoredLittleEndian : Prop :=
  ∀ (m : Memory) (a : Nat) (v : Word), (∀ j < 4, m.admits (a + j) = true) →
    (m.writeWord a v).readWord a = v ∧
    (m.writeWord a v).read a = some (v.extractLsb 7 0) ∧ (m.writeWord a v).read (a + 1) = some (v.extractLsb 15 8) ∧
    (m.writeWord a v).read (a + 2) = some (v.extractLsb 23 16) ∧ (m.writeWord a v).read (a + 3) = some (v.extractLsb 31 24) ∧
    ∀ b, b < a ∨ a + 4 ≤ b → (m.writeWord a v).read b = m.read b

/-! Invariants and runs. -/

/-- The invariant holds at reset, and at the start of every run on a memory in canonical form (R140, R149). -/
def Obligations.InvariantAtReset : Prop :=
  State.reset.Inv ∧ ∀ (cs : List Cmd5) (m : Memory), m.wf = true → (State.startRun cs m).Inv

/-- Every step keeps the invariant: memory stays in canonical form, the index stays within the command list, and a fault
record always names a fault that the last command taken does raise in the memory as it stands (R40, R121, R127). That the index stands one past the command that faulted is the
model's choice (assumption log 2), and that a faulted state keeps its memory is its convention (assumption log 3). -/
def Obligations.EveryStepKeepsTheInvariant : Prop :=
  ∀ s t : State, s.Inv → step s = .next t → t.Inv

/-- R120, R150, R151: every run whose commands all keep the caller's contract ends successfully, after one step a command,
and changes no byte outside the commands' result ranges. -/
def Obligations.ContractKeepingRunSucceeds : Prop :=
  ∀ (is : List Instr) (m : Memory), m.wf = true → (∀ i ∈ is, CallerContract m i) →
    ∃ t, Host.Core.run core is.length (State.startRun (is.map encode) m) = .next t ∧ t.Succeeded ∧ t.mem.wf = true ∧
      ∀ a, (∀ i ∈ is, ¬ InResult i.yref a) → t.mem.read a = m.read a

/-- R52, R146: a command reads memory as the command just before it left it. For any two commands in a row that keep their
callers' contracts, wherever the first one's result lies in the second one's windows: after the first step its two result
words are in memory and every other byte is as before, and the second step's two result words are the ones its windows give
in that memory. -/
def Obligations.LaterCommandSeesEarlierResult : Prop :=
  ∀ (s : State) (i j : Instr), s.phase = .idle →
    s.program[s.index]? = some (encode i) → s.program[s.index + 1]? = some (encode j) →
    CallerContract s.mem i → CallerContract s.mem j →
    ∃ t t', step s = .next t ∧ step t = .next t' ∧ t'.phase = .idle ∧
      t.mem.readWord i.yref.toNat = resultWord i s.mem i.rref i.href ∧
      t.mem.readWord (i.yref.toNat + 4) = resultWord i s.mem i.iref i.href ∧
      (∀ a, ¬ InResult i.yref a → t.mem.read a = s.mem.read a) ∧
      t'.mem.readWord j.yref.toNat = resultWord j t.mem j.rref j.href ∧
      t'.mem.readWord (j.yref.toNat + 4) = resultWord j t.mem j.iref j.href

/-- R127, R150: once a command of a run faults, "the remaining commands are not executed": a run that has failed goes no
further, however many steps are asked of it, and says which cause. The stop's name, `blockFaulted`, is the model's (assumption log
4). -/
def Obligations.FailedRunGoesNoFurther : Prop :=
  ∀ (s t : State) (k : Nat), Host.Core.run core k s = .next t → t.Failed →
    ∃ cause, t.phase = .faulted cause ∧ ∀ j, Host.Core.run core (k + j + 1) s = .fault (.blockFaulted cause)

/-! The datapath. -/

/-- R81: the lane product is "the low 32 bits of the exact 64-bit product", and the same for signed and unsigned operands;
corner rows of the rule's table. -/
def Obligations.LaneProductKeepsLow32Bits : Prop :=
  (∀ (samples taps : Lanes) (k : Fin 8), products samples taps k = wrap32 (s32 (samples k) * s32 (taps k))) ∧
  (∀ a b : Word, mul32 a b = (a.signExtend 64 * b.signExtend 64).extractLsb 31 0 ∧
    mul32 a b = (a.zeroExtend 64 * b.zeroExtend 64).extractLsb 31 0 ∧ u32 (mul32 a b) = u32 a * u32 b % 2 ^ 32) ∧
  mul32 46341#32 46341#32 = 0x80001219#32 ∧ mul32 0x80000000#32 0xFFFFFFFF#32 = 0x80000000#32

/-- R83: the shift rounds toward negative infinity, is a sign extension of bits `[31:8]`, and lies in `[-2^23, 2^23 - 1]`. -/
def Obligations.ShiftRoundsTowardNegativeInfinity : Prop :=
  ∀ p : Word, s32 (asr8 p) = ⌊(s32 p : Rat) / 256⌋ ∧ asr8 p = (p.extractLsb 31 8).signExtend 32 ∧
    -2 ^ 23 ≤ s32 (asr8 p) ∧ s32 (asr8 p) ≤ 2 ^ 23 - 1

/-- R84: the wrapping addition is addition modulo 2^32, associative and commutative. -/
def Obligations.AdditionWrapsModulo2To32 : Prop :=
  ∀ a b c : Word, u32 (add32 a b) = (u32 a + u32 b) % 2 ^ 32 ∧ add32 a b = wrap32 (s32 a + s32 b) ∧
    add32 (add32 a b) c = add32 a (add32 b c) ∧ add32 a b = add32 b a

/-- R87: for every vector, FLAT, TREE and "every other order or grouping of the seven additions" give the same word, the
exact sum modulo 2^32, overflow or not. -/
def Obligations.EverySummationOrderAgrees : Prop :=
  ∀ p : Lanes, flat p = wrap32 (laneSum p) ∧ tree p = wrap32 (laneSum p) ∧
    ∀ w : SumTree, w.lanes.Perm (List.finRange 8) → w.eval p = wrap32 (laneSum p)

/-- R88: "In the float command, the tree sum of the shifted lanes never wraps." -/
def Obligations.ShiftedSumNeverWraps : Prop :=
  ∀ p : Lanes, s32 (tree (shifted p)) = laneSum (shifted p) ∧
    -2 ^ 26 ≤ laneSum (shifted p) ∧ laneSum (shifted p) ≤ 2 ^ 26 - 8

/-- R104: the two integer commands give the same two words on every input, and cannot be told apart by any state, faults
included. -/
def Obligations.IntegerCommandsCannotBeToldApart : Prop :=
  (∀ rv iv hv : Lanes, computeDotprod8Horiz rv iv hv = computeDotprod8 rv iv hv) ∧
  ∀ (s : State) (r i h y : Word), exec (.dotprod8Horiz r i h y) s = exec (.dotprod8 r i h y) s

/-- R105: the float command's integer path is the sum of the shifted lanes, not the shift of the sum. `dotprod_8_float`
computes each channel from the sum of its lane products each divided by 256 rounding down; that is the conversion of `asr8`
of `dotprod_8`'s sum when every lane product is a multiple of 256 and the sum does not wrap; and on the rule's own example
the two integers are -3 and 0 and the results differ. The result words compared are patterns in the layout of assumption log
18. -/
def Obligations.ShiftIsPerLaneBeforeTheSum : Prop :=
  (∀ rv iv hv : Lanes, computeDotprod8Float rv iv hv =
    (scale15 (rne32 (∑ k, ⌊(s32 (products rv hv k) : Rat) / 256⌋)),
      scale15 (rne32 (∑ k, ⌊(s32 (products iv hv k) : Rat) / 256⌋)))) ∧
  (∀ rv iv hv : Lanes, (∀ k, (256 : Int) ∣ s32 (products rv hv k)) →
    -2 ^ 31 ≤ laneSum (products rv hv) → laneSum (products rv hv) < 2 ^ 31 →
    (computeDotprod8Float rv iv hv).1 = scale15 (rne32 (s32 (asr8 (computeDotprod8 rv iv hv).1)))) ∧
  (∀ rv iv hv : Lanes, (∀ k, (256 : Int) ∣ s32 (products iv hv k)) →
    -2 ^ 31 ≤ laneSum (products iv hv) → laneSum (products iv hv) < 2 ^ 31 →
    (computeDotprod8Float rv iv hv).2 = scale15 (rne32 (s32 (asr8 (computeDotprod8 rv iv hv).2)))) ∧
  (∀ p : Lanes, s32 (tree (shifted p)) = ∑ k, ⌊(s32 (p k) : Rat) / 256⌋) ∧
  (∀ p : Lanes, (∀ k, (256 : Int) ∣ s32 (p k)) → -2 ^ 31 ≤ laneSum p → laneSum p < 2 ^ 31 →
    tree (shifted p) = asr8 (flat p)) ∧
  ∀ p iv : Lanes, p = ![wrap32 (-1), wrap32 (-255), wrap32 (-256), wrap32 (-257), 255#32, 256#32, 257#32, 1#32] →
    flat p = 0#32 ∧ s32 (asr8 (flat p)) = 0 ∧ s32 (tree (shifted p)) = -3 ∧
    (computeDotprod8Float p iv (fun _ => 1#32)).1 = scale15 (rne32 (-3)) ∧
    (computeDotprod8Float p iv (fun _ => 1#32)).1 ≠
      scale15 (rne32 (s32 (asr8 (computeDotprod8 p iv (fun _ => 1#32)).1)))

/-- R89: `rne32(n)` is the binary32 number nearest `n`, ties to even; exact up to 2^24 in magnitude; off by at most 2 up to
2^26; +0.0 for 0 and a normal pattern otherwise (so never a NaN, an infinity, a subnormal or -0.0). Rounding to even is the
spec's decision D15 (assumption log 10); patterns are read in the layout of R94, which is presumed (assumption log 18). -/
def Obligations.ConversionRoundsToNearestEven : Prop :=
  ∀ n : Int, -2 ^ 31 ≤ n → n < 2 ^ 31 →
    NearestEven (rne32 n) n ∧
    (|n| ≤ 2 ^ 24 → valueOf (rne32 n) = some (n : Rat)) ∧
    (|n| ≤ 2 ^ 26 → ∃ v, valueOf (rne32 n) = some v ∧ |v - n| ≤ 2) ∧
    (n = 0 → rne32 n = 0x00000000#32) ∧ (n ≠ 0 → IsNormal (rne32 n))

/-- R90: scaling a converted integer multiplies it by 2^-15 exactly, by taking 15 from the exponent field (127 to 158 before),
and the result is the binary32 rounding of `n * 2^-15` itself. Patterns, `SCALE`'s among them, are read in the layout of R94,
which is presumed (assumption log 18). -/
def Obligations.ScalingIsExact : Prop :=
  valueOf Config.scale = some (1 / 32768) ∧
  ∀ n : Int, -2 ^ 31 ≤ n → n < 2 ^ 31 →
    (∃ v, valueOf (rne32 n) = some v ∧ valueOf (scale15 (rne32 n)) = some (v * (1 / 32768))) ∧
    (n = 0 → scale15 (rne32 n) = 0#32) ∧
    (n ≠ 0 → scale15 (rne32 n) = rne32 n - (15#32 <<< 23) ∧
      127 ≤ exponentField (rne32 n) ∧ exponentField (rne32 n) ≤ 158 ∧
      exponentField (scale15 (rne32 n)) + 15 = exponentField (rne32 n) ∧
      fractionField (scale15 (rne32 n)) = fractionField (rne32 n) ∧
      signBit (scale15 (rne32 n)) = signBit (rne32 n)) ∧
    NearestEven (scale15 (rne32 n)) ((n : Rat) * (1 / 32768))

/-- R91: each result of `dotprod_8_float` is a finite binary32 value in [-2048.0, 2047.999755859375], a whole multiple of
2^-15, +0.0 exactly when the shifted sum is 0, and never -0.0, a NaN, an infinity or a subnormal. Patterns are read in the layout of
R94, which is presumed (assumption log 18). -/
def Obligations.FloatResultsStayInRange : Prop :=
  ∀ rv iv hv : Lanes, ∀ bp ∈ [((computeDotprod8Float rv iv hv).1, products rv hv),
      ((computeDotprod8Float rv iv hv).2, products iv hv)],
    (∃ v, valueOf bp.1 = some v ∧ -2048 ≤ v ∧ v ≤ 2047.999755859375 ∧ ∃ z : Int, v = z / 32768) ∧
    (bp.1 = 0x00000000#32 ↔ laneSum (shifted bp.2) = 0) ∧ bp.1 ≠ 0x80000000#32 ∧
    (bp.1 = 0x00000000#32 ∨ IsNormal bp.1)
end

