-- ==== Sys2Proof/Laws/Datapath.lean ====
section
/-! SUPPORT. The datapath's operations as plain 32-bit arithmetic (spec 40_datapath.md R81, R83, R84). -/

namespace Sys2Proof.Machine

/-- The wrapping addition is addition of words. -/
theorem add32_eq_add (a b : Word) : add32 a b = a + b := by
  simp [add32, wrap32, s32, BitVec.ofInt_add]

/-- The lane multiply is multiplication of words. -/
theorem mul32_eq_mul (a b : Word) : mul32 a b = a * b := by
  simp [mul32, wrap32, s32, BitVec.ofInt_mul]

/-- Wrapping undoes the signed reading. -/
@[simp] theorem wrap32_s32 (w : Word) : wrap32 (s32 w) = w := by simp [wrap32, s32]

/-- Wrapping turns a sum of integers into a sum of words. -/
theorem wrap32_add (x y : Int) : wrap32 (x + y) = wrap32 x + wrap32 y := by simp [wrap32, BitVec.ofInt_add]

/-- The signed reading of a word in range. -/
theorem s32_range (w : Word) : -2 ^ 31 ≤ s32 w ∧ s32 w < 2 ^ 31 := by
  have h1 := BitVec.le_toInt w
  have h2 := BitVec.toInt_lt (x := w)
  simp only [s32]
  omega

/-- Wrapping leaves an integer in the signed range alone. -/
theorem s32_wrap32 {n : Int} (h1 : -2 ^ 31 ≤ n) (h2 : n < 2 ^ 31) : s32 (wrap32 n) = n := by
  simp only [s32, wrap32, BitVec.toInt_ofInt]
  rw [Int.bmod_eq_of_le] <;> norm_num <;> omega

end Sys2Proof.Machine
end

