-- ==== Sys2Proof/Laws/Binary32.lean ====
section
/-! SUPPORT. The fields of a packed binary32 pattern and the number a normal pattern denotes (spec 40_datapath.md R89,
R94). -/

namespace Sys2Proof.Machine

/-- A normal pattern denotes the number its fields say (R94). -/
theorem valueOf_normal {b : Word} {s : Bool} {e f : Nat} (hs : signBit b = s) (he : exponentField b = e)
    (hf : fractionField b = f) (h1 : 1 ≤ e) (h2 : e ≤ 254) :
    valueOf b = some ((if s then -1 else 1) * (2 : Rat) ^ ((e : Int) - 127) * (1 + (f : Rat) / 2 ^ 23)) := by
  simp [valueOf, hs, he, hf, h1, h2]

/-- The bits of a packed pattern: fraction, exponent, sign, from the low end. -/
theorem getLsbD_packFloat (s : Bool) (e q i : Nat) :
    (packFloat s e q).getLsbD i =
      if i < 23 then (BitVec.ofNat 23 (q - 2 ^ 23)).getLsbD i
      else if i < 31 then (BitVec.ofNat 8 (e + 127)).getLsbD (i - 23) else (BitVec.ofBool s).getLsbD (i - 31) := by
  have h : (packFloat s e q).getLsbD i =
      ((BitVec.ofBool s ++ BitVec.ofNat 8 (e + 127)) ++ BitVec.ofNat 23 (q - 2 ^ 23)).getLsbD i := rfl
  rw [h, BitVec.getLsbD_append, BitVec.getLsbD_append]
  by_cases h1 : i < 23
  · simp only [h1, if_true]
  · by_cases h2 : i < 31
    · simp only [h1, h2, if_false, if_true, show i - 23 < 8 by omega]
    · simp only [h1, h2, if_false, show ¬ i - 23 < 8 by omega, show i - 23 - 8 = i - 31 by omega]

/-- The sign bit of a packed pattern. -/
theorem signBit_packFloat (s : Bool) (e q : Nat) : signBit (packFloat s e q) = s := by
  rw [signBit, getLsbD_packFloat]
  cases s <;> rfl

/-- The fraction field of a packed pattern. -/
theorem fractionField_packFloat (s : Bool) (e : Nat) {q : Nat} (h : q < 2 ^ 24) (h' : 2 ^ 23 ≤ q) :
    fractionField (packFloat s e q) = q - 2 ^ 23 := by
  have : (packFloat s e q).extractLsb' 0 23 = BitVec.ofNat 23 (q - 2 ^ 23) := by
    apply BitVec.eq_of_getLsbD_eq
    intro i hi
    rw [BitVec.getLsbD_extractLsb', Nat.zero_add, getLsbD_packFloat, if_pos hi, decide_eq_true hi, Bool.true_and]
  rw [fractionField, this, BitVec.toNat_ofNat, Nat.mod_eq_of_lt (by omega)]

/-- The exponent field of a packed pattern. -/
theorem exponentField_packFloat (s : Bool) {e : Nat} (q : Nat) (h : e ≤ 127) :
    exponentField (packFloat s e q) = e + 127 := by
  have : (packFloat s e q).extractLsb' 23 8 = BitVec.ofNat 8 (e + 127) := by
    apply BitVec.eq_of_getLsbD_eq
    intro i hi
    rw [BitVec.getLsbD_extractLsb', getLsbD_packFloat, if_neg (by omega), if_pos (by omega), decide_eq_true hi,
      Bool.true_and, Nat.add_sub_cancel_left]
  rw [exponentField, this, BitVec.toNat_ofNat, Nat.mod_eq_of_lt (by omega)]

/-- A packed pattern denotes `±q * 2^(e-23)` (R89, R94). -/
theorem valueOf_packFloat (s : Bool) {e q : Nat} (he : e ≤ 127) (h : q < 2 ^ 24) (h' : 2 ^ 23 ≤ q) :
    valueOf (packFloat s e q) = some ((if s then -1 else 1) * (q : Rat) * (2 : Rat) ^ ((e : Int) - 23)) := by
  rw [valueOf_normal (signBit_packFloat s e q) (exponentField_packFloat s q he) (fractionField_packFloat s e h h')
    (by omega) (by omega)]
  have hq : ((q - 2 ^ 23 : Nat) : Rat) = (q : Rat) - 2 ^ 23 := by
    rw [Nat.cast_sub h']; norm_num
  have hp : (2 : Rat) ^ ((e : Int) - 23) = 2 ^ (e : Int) / 2 ^ 23 := by
    rw [zpow_sub₀ (by norm_num)]; norm_num
  rw [hq, hp, show ((e + 127 : Nat) : Int) - 127 = e by push_cast; ring]
  congr 1
  generalize (2 : Rat) ^ (e : Int) = x
  ring

end Sys2Proof.Machine
end

