-- ==== Sys2Proof/Laws/Config.lean ====
section
/-! SUPPORT. The named constants as numerals, for simp and omega (spec 00_scope.md R6). -/

namespace Sys2Proof.Config

@[simp] theorem wordBytes_eq : wordBytes = 4 := rfl
@[simp] theorem refAlign_eq : refAlign = 4 := rfl
@[simp] theorem windowBytes_eq : windowBytes = 32 := rfl
@[simp] theorem resultBytes_eq : resultBytes = 8 := rfl
@[simp] theorem addrSpace_eq : addrSpace = 4294967296 := rfl
@[simp] theorem shift_eq : shift = 8 := rfl
@[simp] theorem scaleLog2_eq : scaleLog2 = 15 := rfl
@[simp] theorem cmdBytes_eq : cmdBytes = 20 := rfl

end Sys2Proof.Config
end

