-- ==== Sys2Proof/Laws/Memory.lean ====
section
/-! SUPPORT. The laws of host memory: a read after a write, what a write leaves alone, the fixed admitted set (spec
20_memory.md R40), and that every memory operation keeps the canonical form. -/

namespace Sys2Proof.Machine.Memory

/-- A byte written at an admitted address is the byte read there. -/
theorem read_write_same {m : Memory} {a : Nat} (v : Byte) (h : m.admits a = true) : (m.write a v).read a = some v := by
  induction m with
  | nil => simp [admits, read] at h
  | cons cell rest ih =>
    obtain ⟨k, b⟩ := cell
    by_cases hk : k = a
    · simp [write, read, hk]
    · simp only [admits, read, if_neg hk] at h
      simp [write, read, hk, ih h]

/-- A write leaves every other address alone. -/
theorem read_write_of_ne (m : Memory) {a b : Nat} (v : Byte) (h : a ≠ b) : (m.write a v).read b = m.read b := by
  induction m with
  | nil => rfl
  | cons cell rest ih =>
    obtain ⟨k, c⟩ := cell
    by_cases hk : k = a
    · simp [write, read, hk, h]
    · simp only [write, if_neg hk, read, ih]

/-- A write never changes which addresses are admitted (R40). -/
@[simp] theorem admits_write (m : Memory) (a b : Nat) (v : Byte) : (m.write a v).admits b = m.admits b := by
  by_cases hab : a = b
  · subst hab
    by_cases h : m.admits a = true
    · rw [h]; simp [admits, read_write_same v h]
    · induction m with
      | nil => rfl
      | cons cell rest ih =>
        obtain ⟨k, c⟩ := cell
        by_cases hk : k = a
        · simp [admits, read, hk] at h
        · simp only [admits, read, if_neg hk] at h
          simpa [admits, write, read, hk] using ih h
  · simp [admits, read_write_of_ne m v hab]

theorem wfFrom_write {m : Memory} {lo : Nat} (a : Nat) (v : Byte) (h : m.wfFrom lo = true) :
    (m.write a v).wfFrom lo = true := by
  induction m generalizing lo with
  | nil => rfl
  | cons cell rest ih =>
    obtain ⟨k, c⟩ := cell
    by_cases hk : k = a
    · simpa [write, wfFrom, hk] using h
    · simp only [wfFrom, Bool.and_eq_true] at h
      simp only [write, if_neg hk, wfFrom, Bool.and_eq_true]
      exact ⟨h.1, ih h.2⟩

/-- A write keeps the canonical form. -/
theorem wf_write {m : Memory} (a : Nat) (v : Byte) (h : m.wf = true) : (m.write a v).wf = true := wfFrom_write a v h

/-- A word write leaves every byte outside its four alone. -/
theorem read_writeWord_of_outside (m : Memory) {a b : Nat} (v : Word) (h : b < a ∨ a + 4 ≤ b) :
    (m.writeWord a v).read b = m.read b := by
  simp only [writeWord]
  rw [read_write_of_ne _ _ (by omega), read_write_of_ne _ _ (by omega), read_write_of_ne _ _ (by omega),
    read_write_of_ne _ _ (by omega)]

@[simp] theorem admits_writeWord (m : Memory) (a b : Nat) (v : Word) : (m.writeWord a v).admits b = m.admits b := by
  simp [writeWord]

/-- A word write keeps the canonical form. -/
theorem wf_writeWord {m : Memory} (a : Nat) (v : Word) (h : m.wf = true) : (m.writeWord a v).wf = true :=
  wf_write _ _ (wf_write _ _ (wf_write _ _ (wf_write _ _ h)))

/-- A word read depends on its four bytes alone. -/
theorem readWord_congr {m m' : Memory} {a : Nat} (h : ∀ j < 4, m.read (a + j) = m'.read (a + j)) :
    m.readWord a = m'.readWord a := by
  simp [readWord, byteAt, h 1, h 2, h 3, show m.read a = m'.read a from h 0 (by omega)]

/-- A store of the result leaves every byte outside its eight alone. -/
theorem read_storeResult_of_outside (m : Memory) (y : Word) (r : Word × Word) {a : Nat}
    (h : a < y.toNat ∨ y.toNat + 8 ≤ a) : (storeResult m y r).read a = m.read a := by
  simp only [storeResult, elementAddr, Config.wordBytes_eq]
  rw [read_writeWord_of_outside _ _ (by simp; omega), read_writeWord_of_outside _ _ (by simp; omega)]

@[simp] theorem admits_storeResult (m : Memory) (y : Word) (r : Word × Word) (a : Nat) :
    (storeResult m y r).admits a = m.admits a := by
  simp [storeResult]

/-- A store of the result keeps the canonical form. -/
theorem wf_storeResult {m : Memory} (y : Word) (r : Word × Word) (h : m.wf = true) : (storeResult m y r).wf = true :=
  wf_writeWord _ _ (wf_writeWord _ _ h)

/-- The memory of the reset state is in canonical form. -/
theorem wf_reset : State.reset.mem.wf = true := rfl

end Sys2Proof.Machine.Memory
end

