-- ==== Sys2Proof/Laws/Operands.lean ====
section
/-! SUPPORT. What the reference checks say, in terms of addresses (spec 20_memory.md R44 to R47). -/

namespace Sys2Proof.Machine

theorem isMisaligned_iff (x : Word) : isMisaligned x = true ↔ x.toNat % 4 ≠ 0 := by simp [isMisaligned]

theorem isAccessible_iff (m : Memory) (x : Word) (n : Nat) :
    isAccessible m x n = true ↔ x.toNat + n ≤ 2 ^ 32 ∧ AdmittedRange m x n := by
  simp [isAccessible, AdmittedRange, List.all_eq_true]

theorem overlapsInput_iff (y x : Word) :
    overlapsInput y x = true ↔ x.toNat < y.toNat + 8 ∧ y.toNat < x.toNat + 32 := by
  simp [overlapsInput]

/-- The range check refuses exactly the inaccessible ranges (R124). -/
theorem not_isAccessible_iff (m : Memory) (p : Word × Nat) : (!isAccessible m p.1 p.2) = true ↔ Inaccessible m p := by
  rw [Bool.not_eq_true', Bool.eq_false_iff, ne_eq, isAccessible_iff]
  simp only [Inaccessible, AdmittedRange, not_and_or, not_le, not_forall, Bool.not_eq_true, exists_prop]

/-- The overlap check finds exactly the input windows that share a byte with the output (R125). -/
theorem overlapsInput_iff_sharesByte (y x : Word) : overlapsInput y x = true ↔ SharesByte y x := by
  rw [overlapsInput_iff]
  simp only [SharesByte, InResult, InWindow, Config.resultBytes_eq, Config.windowBytes_eq]
  constructor
  · intro h
    exact ⟨max x.toNat y.toNat, by omega⟩
  · rintro ⟨a, h⟩
    omega

/-- The checks look at the admitted set alone, never at a byte. -/
theorem checkReferences_congr {m m' : Memory} (r i h y : Word) (hm : ∀ a, m.admits a = m'.admits a) :
    checkReferences m r i h y = checkReferences m' r i h y := by
  simp [checkReferences, firstInaccessible, isAccessible, hm]

/-- The three outcomes of the checks, in their order (R126). -/
theorem checkReferences_cases {m : Memory} {r i h y : Word} {cause : FaultCause}
    (hc : checkReferences m r i h y = some cause) :
    (∃ x, cause = .misalignedReference x ∧ firstMisaligned r i h y = some x) ∨
    (∃ x, cause = .accessFault x ∧ firstMisaligned r i h y = none ∧ firstInaccessible m r i h y = some x) ∨
    (∃ x, cause = .outputAlias x ∧ firstMisaligned r i h y = none ∧ firstInaccessible m r i h y = none ∧
      firstOverlapped r i h y = some x) := by
  unfold checkReferences at hc
  split at hc
  · exact .inl ⟨_, (Option.some.inj hc).symm, ‹_›⟩
  · split at hc
    · exact .inr (.inl ⟨_, (Option.some.inj hc).symm, ‹_›, ‹_›⟩)
    · split at hc
      · exact .inr (.inr ⟨_, (Option.some.inj hc).symm, ‹_›, ‹_›, ‹_›⟩)
      · cases hc

/-- The checks pass exactly when no list of them finds a failing reference. -/
theorem checkReferences_eq_none_iff {m : Memory} {r i h y : Word} :
    checkReferences m r i h y = none ↔
      firstMisaligned r i h y = none ∧ firstInaccessible m r i h y = none ∧ firstOverlapped r i h y = none := by
  unfold checkReferences
  split <;> rename_i h1
  · simp [h1]
  · split <;> rename_i h2
    · simp [h2]
    · split <;> rename_i h3 <;> simp [h1, h2, h3]

/-- The checks pass exactly when the command keeps its caller's contract (R143). -/
theorem checkReferences_eq_none_iff_contract (m : Memory) (i : Instr) :
    checkReferences m i.rref i.iref i.href i.yref = none ↔ CallerContract m i := by
  rw [checkReferences_eq_none_iff]
  simp only [firstMisaligned, firstInaccessible, firstOverlapped, List.find?_eq_none, Option.map_eq_none_iff,
    List.mem_cons, List.not_mem_nil, or_false, forall_eq_or_imp, forall_eq, Bool.not_eq_true', Bool.eq_false_iff, ne_eq,
    isAccessible_iff, isMisaligned_iff, overlapsInput_iff, CallerContract, Instr.WellFormed, Instr.RefsAligned,
    Instr.RangesInSpace, Instr.OutputDisjoint, Word.Aligned, Word.InSpace, OutputApart, Config.windowBytes_eq,
    Config.resultBytes_eq, Config.refAlign_eq, Config.addrSpace_eq, not_not]
  constructor
  · rintro ⟨⟨ar, ai, ah, ay⟩, ⟨⟨sr, mr⟩, ⟨si, mi⟩, ⟨sh, mh⟩, sy, my⟩, dr, di, dh⟩
    exact ⟨⟨⟨ar, ai, ah, ay⟩, ⟨sr, si, sh, sy⟩, by omega, by omega, by omega⟩, mr, mi, mh, my⟩
  · rintro ⟨⟨⟨ar, ai, ah, ay⟩, ⟨sr, si, sh, sy⟩, dr, di, dh⟩, mr, mi, mh, my⟩
    exact ⟨⟨ar, ai, ah, ay⟩, ⟨⟨sr, mr⟩, ⟨si, mi⟩, ⟨sh, mh⟩, sy, my⟩, by omega, by omega, by omega⟩

end Sys2Proof.Machine
end

