-- ==== Sys2Proof/Laws/State.lean ====
section
/-! SUPPORT. One lemma per field per update of the state, each true by definition, so that no later proof unfolds a record
update. -/

namespace Sys2Proof.Machine.BlockState

variable (b : BlockState) (cause : FaultCause)

@[simp] theorem withFault_phase : (b.withFault cause).phase = .faulted cause := rfl
@[simp] theorem withFault_mem : (b.withFault cause).mem = b.mem := rfl
@[simp] theorem reset_phase : b.reset.phase = .idle := rfl
@[simp] theorem reset_mem : b.reset.mem = b.mem := rfl

end Sys2Proof.Machine.BlockState

namespace Sys2Proof.Machine.State

variable (s : State) (cause : FaultCause) (c : Cmd5) (a : Nat) (v : Word)

@[simp] theorem withFault_phase : (s.withFault cause).phase = .faulted cause := rfl
@[simp] theorem withFault_mem : (s.withFault cause).mem = s.mem := rfl
@[simp] theorem withFault_program : (s.withFault cause).program = s.program := rfl
@[simp] theorem withFault_index : (s.withFault cause).index = s.index := rfl

@[simp] theorem advance_phase : s.advance.phase = s.phase := rfl
@[simp] theorem advance_mem : s.advance.mem = s.mem := rfl
@[simp] theorem advance_program : s.advance.program = s.program := rfl
@[simp] theorem advance_index : s.advance.index = s.index + 1 := rfl

@[simp] theorem blockReset_phase : s.blockReset.phase = .idle := rfl
@[simp] theorem blockReset_mem : s.blockReset.mem = s.mem := rfl
@[simp] theorem blockReset_program : s.blockReset.program = [] := rfl
@[simp] theorem blockReset_index : s.blockReset.index = 0 := rfl

@[simp] theorem deliver_phase : (s.deliver c).phase = s.phase := rfl
@[simp] theorem deliver_mem : (s.deliver c).mem = s.mem := rfl
@[simp] theorem deliver_program : (s.deliver c).program = s.program ++ [c] := rfl
@[simp] theorem deliver_index : (s.deliver c).index = s.index := rfl

@[simp] theorem hostWriteWord_phase : (s.hostWriteWord a v).phase = s.phase := rfl
@[simp] theorem hostWriteWord_mem : (s.hostWriteWord a v).mem = s.mem.writeWord a v := rfl
@[simp] theorem hostWriteWord_program : (s.hostWriteWord a v).program = s.program := rfl
@[simp] theorem hostWriteWord_index : (s.hostWriteWord a v).index = s.index := rfl

@[simp] theorem placeCommand_phase : (s.placeCommand c).phase = .idle := rfl
@[simp] theorem placeCommand_mem : (s.placeCommand c).mem = s.mem := rfl
@[simp] theorem placeCommand_index : (s.placeCommand c).index = s.index := rfl

@[simp] theorem reset_phase : State.reset.phase = .idle := rfl
@[simp] theorem reset_mem : State.reset.mem = [] := rfl
@[simp] theorem reset_program : State.reset.program = [] := rfl
@[simp] theorem reset_index : State.reset.index = 0 := rfl

/-- The command placed is the next one taken, wherever the index stands. -/
theorem placeCommand_nextCommand : (s.placeCommand c).nextCommand = some c := by
  simp only [nextCommand, placeCommand]
  rw [List.getElem?_append_right (by simp; omega)]
  simp [show s.index - (min s.index s.program.length + (s.index - s.program.length)) = 0 by omega]

end Sys2Proof.Machine.State
end

