-- ==== Sys2Proof/Laws/Exec.lean ====
section
/-! SUPPORT. What a command and a step can do, said once: every later proof cites these instead of unfolding the machine
(spec 41_dotprod.md R100). -/

namespace Sys2Proof.Machine

theorem whenIdle_idle {σ : Type} {p : Phase} {o : Host.Outcome σ Fault Refusal} (h : p = .idle) : whenIdle p o = o := by
  simp [whenIdle, h]

theorem whenIdle_faulted {σ : Type} {p : Phase} {o : Host.Outcome σ Fault Refusal} {cause : FaultCause}
    (h : p = .faulted cause) : whenIdle p o = .fault (.blockFaulted cause) := by
  simp [whenIdle, h]

/-- A next state comes from an idle block only. -/
theorem whenIdle_next {σ : Type} {p : Phase} {o : Host.Outcome σ Fault Refusal} {t : σ} (h : whenIdle p o = .next t) :
    p = .idle ∧ o = .next t := by
  cases p with
  | idle => exact ⟨rfl, h⟩
  | faulted cause => cases h

theorem onBlock_of_next {run : BlockState → Host.Outcome BlockState Fault Refusal} {s : State} {b : BlockState}
    (h : run s.toBlockState = .next b) : onBlock run s = .next { s with toBlockState := b } := by
  simp [onBlock, h]

theorem onBlock_of_fault {run : BlockState → Host.Outcome BlockState Fault Refusal} {s : State} {r : Fault}
    (h : run s.toBlockState = .fault r) : onBlock run s = .fault r := by
  simp [onBlock, h]

/-- A next state of a command is a next state of the block, with the command list and the index as they were. -/
theorem onBlock_next {run : BlockState → Host.Outcome BlockState Fault Refusal} {s t : State} (h : onBlock run s = .next t) :
    ∃ b, run s.toBlockState = .next b ∧ t = { s with toBlockState := b } := by
  unfold onBlock at h
  split at h
  · cases h
    exact ⟨_, ‹_›, rfl⟩
  · cases h
  · cases h

/-- Everything a command can do to the block when it answers a next state: take the fault its checks decide, or store its
result. -/
theorem runCommand_next {f : Compute} {r i h y : Word} {b b' : BlockState} (ht : runCommand f r i h y b = .next b') :
    b.phase = .idle ∧
      ((∃ cause, checkReferences b.mem r i h y = some cause ∧ b' = b.withFault cause) ∨
        (checkReferences b.mem r i h y = none ∧ b' = { b with mem := resultMemory f b.mem r i h y })) := by
  obtain ⟨hs, ht⟩ := whenIdle_next ht
  refine ⟨hs, ?_⟩
  cases hc : checkReferences b.mem r i h y with
  | some cause =>
    simp only [hc, takeFault] at ht
    cases ht
    exact .inl ⟨cause, rfl, rfl⟩
  | none =>
    simp only [hc] at ht
    cases ht
    exact .inr ⟨rfl, rfl⟩

/-- A command on an idle block whose checks pass stores its result and changes nothing else. -/
theorem runCommand_completes {f : Compute} {r i h y : Word} {b : BlockState} (hs : b.phase = .idle)
    (hc : checkReferences b.mem r i h y = none) :
    runCommand f r i h y b = .next { b with mem := resultMemory f b.mem r i h y } := by
  simp [runCommand, whenIdle, hs, hc]

/-- A command on an idle block whose checks fail takes the fault they decide. -/
theorem runCommand_faults {f : Compute} {r i h y : Word} {b : BlockState} {cause : FaultCause} (hs : b.phase = .idle)
    (hc : checkReferences b.mem r i h y = some cause) : runCommand f r i h y b = .next (b.withFault cause) := by
  simp [runCommand, whenIdle, hs, hc, takeFault]

/-- What a command computes from its windows. -/
def computeOf : Instr → Compute
  | .dotprod8 _ _ _ _ => computeDotprod8
  | .dotprod8Float _ _ _ _ => computeDotprod8Float
  | .dotprod8Horiz _ _ _ _ => computeDotprod8Horiz

/-- Every command is the one execution frame around its own computation, run on the block's state. -/
theorem exec_eq_onBlock (i : Instr) (s : State) :
    exec i s = onBlock (runCommand (computeOf i) i.rref i.iref i.href i.yref) s := by
  cases i <;> rfl

/-- Everything a command can do when it answers a next state. -/
theorem exec_next {i : Instr} {s t : State} (ht : exec i s = .next t) :
    s.phase = .idle ∧
      ((∃ cause, checkReferences s.mem i.rref i.iref i.href i.yref = some cause ∧ t = s.withFault cause) ∨
        (checkReferences s.mem i.rref i.iref i.href i.yref = none ∧
          t = { s with mem := resultMemory (computeOf i) s.mem i.rref i.iref i.href i.yref })) := by
  rw [exec_eq_onBlock] at ht
  obtain ⟨b, hb, rfl⟩ := onBlock_next ht
  obtain ⟨hs, ⟨cause, hc, rfl⟩ | ⟨hc, rfl⟩⟩ := runCommand_next hb
  · exact ⟨hs, .inl ⟨cause, hc, rfl⟩⟩
  · exact ⟨hs, .inr ⟨hc, rfl⟩⟩

/-- A command on an idle block whose checks pass completes. -/
theorem exec_completes {i : Instr} {s : State} (hs : s.phase = .idle)
    (hc : checkReferences s.mem i.rref i.iref i.href i.yref = none) :
    exec i s = .next { s with mem := resultMemory (computeOf i) s.mem i.rref i.iref i.href i.yref } := by
  rw [exec_eq_onBlock]
  exact onBlock_of_next (runCommand_completes hs hc)

/-- A command on an idle block whose checks fail takes their fault. -/
theorem exec_faults {i : Instr} {s : State} {cause : FaultCause} (hs : s.phase = .idle)
    (hc : checkReferences s.mem i.rref i.iref i.href i.yref = some cause) : exec i s = .next (s.withFault cause) := by
  rw [exec_eq_onBlock]
  exact onBlock_of_next (runCommand_faults hs hc)

/-- A command on a faulted block has no step. -/
theorem exec_of_faulted {i : Instr} {s : State} {cause : FaultCause} (hs : s.phase = .faulted cause) :
    exec i s = .fault (.blockFaulted cause) := by
  rw [exec_eq_onBlock]
  exact onBlock_of_fault (whenIdle_faulted hs)

/-- An illegal command on an idle block takes its fault. -/
theorem execIllegal_of_idle {w : Word} {s : State} (hs : s.phase = .idle) :
    execIllegal w s = .next (s.withFault (.illegalCommand w)) :=
  onBlock_of_next (whenIdle_idle hs)

/-- An illegal command on a faulted block has no step. -/
theorem execIllegal_of_faulted {w : Word} {s : State} {cause : FaultCause} (hs : s.phase = .faulted cause) :
    execIllegal w s = .fault (.blockFaulted cause) :=
  onBlock_of_fault (whenIdle_faulted hs)

/-- Everything the execution of five words can do when it answers a next state. -/
theorem execute_next {c : Cmd5} {s t : State} (ht : execute c s = .next t) :
    s.phase = .idle ∧
      ((∃ w, decode c = .illegal w ∧ t = s.withFault (.illegalCommand w)) ∨ ∃ i, decode c = .command i ∧ exec i s = .next t) := by
  unfold execute at ht
  split at ht
  · rename_i i hi
    exact ⟨(exec_next ht).1, .inr ⟨i, hi, ht⟩⟩
  · rename_i w hw
    obtain ⟨b, hb, rfl⟩ := onBlock_next ht
    obtain ⟨hs, hb⟩ := whenIdle_next hb
    cases hb
    exact ⟨hs, .inl ⟨w, hw, rfl⟩⟩

/-- Everything a step can do when it answers a next state: the block is idle, a command is there, and it is executed. -/
theorem step_next {s t : State} (ht : step s = .next t) :
    s.phase = .idle ∧ ∃ c, s.nextCommand = some c ∧ execute c s.advance = .next t := by
  obtain ⟨hs, ht⟩ := whenIdle_next ht
  refine ⟨hs, ?_⟩
  cases hc : s.nextCommand with
  | none => rw [hc] at ht; cases ht
  | some c => rw [hc] at ht; exact ⟨c, rfl, ht⟩

/-- A step of an idle block with a command there executes that command. -/
theorem step_of_nextCommand {s : State} {c : Cmd5} (hs : s.phase = .idle) (hc : s.nextCommand = some c) :
    step s = execute c s.advance := by
  simp [step, stepCommand, whenIdle, hs, hc]

end Sys2Proof.Machine
end

