-- ==== Sys2Proof/Laws/PerInstr.lean ====
section
/-! SUPPORT. Families of statements made per instruction, one lemma per constructor of `Instr`. -/

/-- `CommandShape`: the five words of a command carry its four references in the order of spec 30_encoding.md R60, and its
encoding is 20 bytes long (R66). -/
def Sys2Proof.Laws.CommandShape.Statement (i : Sys2Proof.Instr) : Prop :=
  (Sys2Proof.encode i).rref = i.rref ∧ (Sys2Proof.encode i).iref = i.iref ∧ (Sys2Proof.encode i).href = i.href ∧
    (Sys2Proof.encode i).yref = i.yref ∧ (Sys2Proof.encodeBytes i).length = 20

theorem Sys2Proof.Laws.CommandShape.dotprod8 (r i h y : Sys2Proof.Word) :
    Sys2Proof.Laws.CommandShape.Statement (.dotprod8 r i h y) := ⟨rfl, rfl, rfl, rfl, rfl⟩

theorem Sys2Proof.Laws.CommandShape.dotprod8Float (r i h y : Sys2Proof.Word) :
    Sys2Proof.Laws.CommandShape.Statement (.dotprod8Float r i h y) := ⟨rfl, rfl, rfl, rfl, rfl⟩

theorem Sys2Proof.Laws.CommandShape.dotprod8Horiz (r i h y : Sys2Proof.Word) :
    Sys2Proof.Laws.CommandShape.Statement (.dotprod8Horiz r i h y) := ⟨rfl, rfl, rfl, rfl, rfl⟩
end

