-- ==== Sys2Proof/Tests/Slice0.lean ====
section
/-! SUPPORT. Tests. Every expected value is taken from spec/95_test_vectors.md (the vector's id is in the comment) or from
the corner tables of spec/40_datapath.md, none from the model. At the end, one witness for each statement with
hypotheses. -/

namespace Sys2Proof.Tests

open Sys2Proof.Machine

/-! Helpers: a memory that admits exactly the bytes of some words, and a block about to take one command. -/

/-- Consecutive cells from an address on. -/
def cellsFrom (base : Nat) : List Byte → Memory
  | [] => []
  | b :: bs => (base, b) :: cellsFrom (base + 1) bs

/-- Exactly the bytes of these words admitted, from `base` on. -/
def wordsAt (base : Nat) (ws : List Word) : Memory := cellsFrom base (ws.flatMap bytesOfWord)

/-- An `Idle` block with this memory and this command list. -/
def ready (m : Memory) (cs : List Cmd5) : State := State.startRun cs m

/-- R at 0x1000, I at 0x1020, H at 0x1040, a zeroed result at 0x1060. -/
def windows (r i h : List Int) : State := ready (wordsAt 0x1000 ((r ++ i ++ h ++ [0, 0]).map wrap32)) []

/-- The phase and the two result words at 0x1060 after an outcome. -/
def result : Host.Outcome State Fault Refusal → Option (Phase × Word × Word)
  | .next t => some (t.phase, t.mem.readWord 0x1060, t.mem.readWord 0x1064)
  | .fault _ => none
  | .refused _ => none

/-- The next state of an outcome, if there is one. -/
def nextOf : Host.Outcome State Fault Refusal → Option State
  | .next t => some t
  | .fault _ => none
  | .refused _ => none

/-- The start state of the fault vectors: exactly [0x4000, 0x4080) admitted, all zero. -/
def faultStart (c : Cmd5) : State := ready (wordsAt 0x4000 (List.replicate 32 0)) [c]

/-- The phase after one step, if there is one. -/
def phaseAfter (s : State) : Option Phase := (nextOf (step s)).map (fun t => t.phase)

/-! Decoding: words written out from R62 and R66. -/

theorem test_decode_dotprod8 : decodeBytes [0x00, 0x00, 0x00, 0x00, 0x00, 0x10, 0x00, 0x00, 0x20, 0x10, 0x00, 0x00, 0x40,
    0x10, 0x00, 0x00, 0x60, 0x10, 0x00, 0x00] = .command (.dotprod8 0x1000#32 0x1020#32 0x1040#32 0x1060#32) [] := by decide

theorem test_decode_dotprod8Float : decodeBytes [0x01, 0x00, 0x00, 0x00, 0x04, 0x20, 0x00, 0x00, 0x44, 0x20, 0x00, 0x00, 0x80,
    0x20, 0x00, 0x00, 0x08, 0x21, 0x00, 0x00] = .command (.dotprod8Float 0x2004#32 0x2044#32 0x2080#32 0x2108#32) [] := by decide

theorem test_decode_dotprod8Horiz : decodeBytes [0x02, 0x00, 0x00, 0x00, 0x60, 0x30, 0x00, 0x00, 0x80, 0x30, 0x00, 0x00, 0x40,
    0x30, 0x00, 0x00, 0x00, 0x31, 0x00, 0x00, 0xAA] =
    .command (.dotprod8Horiz 0x3060#32 0x3080#32 0x3040#32 0x3100#32) [0xAA] := by decide

/-- E-4 to E-7. -/
theorem test_decode_illegal :
    decode ⟨0x00000003#32, 0x1000#32, 0x1020#32, 0x1040#32, 0x1060#32⟩ = .illegal 0x00000003#32 ∧
    decode ⟨0x00000004#32, 0x1000#32, 0x1020#32, 0x1040#32, 0x1060#32⟩ = .illegal 0x00000004#32 ∧
    decode ⟨0x80000001#32, 0x1000#32, 0x1020#32, 0x1040#32, 0x1060#32⟩ = .illegal 0x80000001#32 ∧
    decode ⟨0xFFFFFFFF#32, 0x1000#32, 0x1020#32, 0x1040#32, 0x1060#32⟩ = .illegal 0xFFFFFFFF#32 := by decide

theorem test_decode_truncated : decodeBytes (List.replicate 19 0) = .truncated := by decide

theorem test_decodeTableWord : decodeTableWord 160 0x0000106000001040000010200000100000000002 =
    some (.dotprod8Horiz 0x1000#32 0x1020#32 0x1040#32 0x1060#32) ∧
    decodeTableWord 32 1 = some (.dotprod8Float 0#32 0#32 0#32 0#32) ∧ decodeTableWord 32 3 = none := by decide

/-- The word placed is the first thing run after reset: its references are 0, which reset does not admit. -/
theorem test_withFetchWord : phaseAfter (State.reset.withFetchWord 32 1) = some (.faulted (.accessFault 0#32)) := by decide

/-- R68, R69: a mnemonic with too few operands, an unknown mnemonic and a literal past 32 bits are refused. -/
theorem test_assembler_refuses : Asm.program [] ["dotprod_8 0x1000, 0x1020, 0x1040"] = none ∧
    Asm.program [] ["dotprod 0x1000, 0x1020, 0x1040, 0x1060"] = none ∧ Asm.program [] [".word 4294967296"] = none := by decide

/-! WellFormed: one ill-formed command for each check, and one that passes. -/

theorem test_wf_ok : (Instr.dotprod8 0x4000#32 0x4020#32 0x4040#32 0x4060#32).WellFormed := by decide
theorem test_wf_refuses_misaligned_r : ¬ (Instr.dotprod8 0x4002#32 0x4020#32 0x4040#32 0x4060#32).WellFormed := by decide
theorem test_wf_refuses_misaligned_i : ¬ (Instr.dotprod8 0x4000#32 0x4021#32 0x4040#32 0x4060#32).WellFormed := by decide
theorem test_wf_refuses_misaligned_h : ¬ (Instr.dotprod8Float 0x4000#32 0x4020#32 0x4043#32 0x4060#32).WellFormed := by decide
theorem test_wf_refuses_misaligned_y : ¬ (Instr.dotprod8Horiz 0x4000#32 0x4020#32 0x4040#32 0x4062#32).WellFormed := by decide
theorem test_wf_refuses_wrapped_r : ¬ (Instr.dotprod8 0xFFFFFFE4#32 0x4020#32 0x4040#32 0x4060#32).WellFormed := by decide
theorem test_wf_refuses_wrapped_i : ¬ (Instr.dotprod8 0x4000#32 0xFFFFFFE4#32 0x4040#32 0x4060#32).WellFormed := by decide
theorem test_wf_refuses_wrapped_h : ¬ (Instr.dotprod8 0x4000#32 0x4020#32 0xFFFFFFE4#32 0x4060#32).WellFormed := by decide
theorem test_wf_refuses_wrapped_y : ¬ (Instr.dotprod8 0x4000#32 0x4020#32 0x4040#32 0xFFFFFFFC#32).WellFormed := by decide
theorem test_wf_refuses_output_on_r : ¬ (Instr.dotprod8 0x4000#32 0x4080#32 0x4040#32 0x401C#32).WellFormed := by decide
theorem test_wf_refuses_output_on_i : ¬ (Instr.dotprod8 0x4000#32 0x4020#32 0x4060#32 0x403C#32).WellFormed := by decide
theorem test_wf_refuses_output_on_h : ¬ (Instr.dotprod8 0x4000#32 0x4020#32 0x4040#32 0x405C#32).WellFormed := by decide

/-! The datapath (95_test_vectors.md section 2.1). -/

/-- A-1 to A-4. -/
theorem test_mul32 : mul32 256#32 0xFFFFFFFF#32 = 0xFFFFFF00#32 ∧ mul32 65536#32 65536#32 = 0#32 ∧
    mul32 46341#32 46341#32 = 0x80001219#32 ∧ mul32 0x80000000#32 0xFFFFFFFF#32 = 0x80000000#32 := by decide

/-- A-5 to A-9. -/
theorem test_asr8 : asr8 0xFFFFFFFF#32 = 0xFFFFFFFF#32 ∧ asr8 0xFFFFFEFF#32 = 0xFFFFFFFE#32 ∧ asr8 255#32 = 0#32 ∧
    asr8 0x80000000#32 = 0xFF800000#32 ∧ asr8 0x7FFFFFFF#32 = 0x007FFFFF#32 := by decide

/-- A-10 to A-12. -/
theorem test_sums : add32 0x7FFFFFFF#32 1#32 = 0x80000000#32 ∧ add32 0x80000000#32 0xFFFFFFFF#32 = 0x7FFFFFFF#32 ∧
    flat ![0x7FFFFFFF#32, 1#32, 0xFFFFFFFF#32, 0x80000001#32, 5#32, 0#32, 0#32, 0#32] = 5#32 ∧
    tree ![0x7FFFFFFF#32, 1#32, 0xFFFFFFFF#32, 0x80000001#32, 5#32, 0#32, 0#32, 0#32] = 5#32 := by decide

/-- A-13 to A-19. -/
theorem test_rne32 : rne32 0 = 0x00000000#32 ∧ rne32 16777216 = 0x4B800000#32 ∧ rne32 16777217 = 0x4B800000#32 ∧
    rne32 16777219 = 0x4B800002#32 ∧ rne32 16777218 = 0x4B800001#32 ∧ rne32 (-67108864) = 0xCC800000#32 ∧
    rne32 2147483647 = 0x4F000000#32 := by decide

/-- A-20 to A-24. -/
theorem test_scale15 : scale15 0x4B800000#32 = 0x44000000#32 ∧ scale15 0x3F800000#32 = 0x38000000#32 ∧
    scale15 0x00000000#32 = 0x00000000#32 ∧ scale15 (rne32 32768) = 0x3F800000#32 ∧
    scale15 (rne32 (-3)) = 0xB8C00000#32 := by decide

/-- The examples of R94, and the range end of R91. -/
theorem test_valueOf : valueOf 0x38000000#32 = some (1 / 32768) ∧ valueOf 0xB8000000#32 = some (-1 / 32768) ∧
    valueOf 0x44000000#32 = some 512 ∧ valueOf 0xC5000000#32 = some (-2048) ∧
    valueOf 0x44FFFFFE#32 = some 2047.999755859375 := by
  refine ⟨?_, ?_, ?_, ?_, ?_⟩
  · rw [valueOf_normal (s := false) (e := 112) (f := 0) rfl rfl rfl (by decide) (by decide)]; norm_num
  · rw [valueOf_normal (s := true) (e := 112) (f := 0) rfl rfl rfl (by decide) (by decide)]; norm_num
  · rw [valueOf_normal (s := false) (e := 136) (f := 0) rfl rfl rfl (by decide) (by decide)]; norm_num
  · rw [valueOf_normal (s := true) (e := 138) (f := 0) rfl rfl rfl (by decide) (by decide)]; norm_num
  · rw [valueOf_normal (s := false) (e := 137) (f := 0x7FFFFE) rfl rfl rfl (by decide) (by decide)]; norm_num

/-! The commands (section 2.2): one step on a small memory. -/

set_option maxRecDepth 4000 in
/-- S5. -/
theorem test_dotprod8_known_vector :
    result (exec (.dotprod8 0x1000#32 0x1020#32 0x1040#32 0x1060#32)
      (windows [1, 2, 3, 4, 5, 6, 7, 8] [8, 7, 6, 5, 4, 3, 2, 1] [1, 1, 1, 1, 1, 1, 1, 1])) =
      some (.idle, 0x00000024#32, 0x00000024#32) := by decide

set_option maxRecDepth 4000 in
/-- D-3: products kept to 32 bits. -/
theorem test_dotprod8_truncates :
    result (exec (.dotprod8 0x1000#32 0x1020#32 0x1040#32 0x1060#32)
      (windows [65536, 46341, 0, 0, 0, 0, 0, 0] [-65536, -46341, 0, 0, 0, 0, 0, 0] [65536, 46341, 0, 0, 0, 0, 0, 0])) =
      some (.idle, 0x80001219#32, 0x7FFFEDE7#32) := by decide

/-- D-1: small negative products shift to -1 each. -/
theorem test_dotprod8Float_floor :
    result (exec (.dotprod8Float 0x1000#32 0x1020#32 0x1040#32 0x1060#32)
      (windows [1, -2, 3, -4, 5, -6, 7, -8] [10, 20, 30, 40, 50, 60, 70, 80] [2, 2, 2, 2, 2, 2, 2, 2])) =
      some (.idle, 0xB9000000#32, 0x00000000#32) := by decide

/-- D-11 in the real channel, D-13 in the imaginary: a tie rounded up to even, and -1.0. -/
theorem test_dotprod8Float_tie :
    result (exec (.dotprod8Float 0x1000#32 0x1020#32 0x1040#32 0x1060#32)
      (windows [8388607, 8388607, 5, 0, 0, 0, 0, 0] [-32768, 0, 0, 0, 0, 0, 0, 0] [256, 256, 256, 0, 0, 0, 0, 0])) =
      some (.idle, 0x44000002#32, 0xBF800000#32) := by decide

/-- D-4: the sum wraps. -/
theorem test_dotprod8Horiz_wraps :
    result (exec (.dotprod8Horiz 0x1000#32 0x1020#32 0x1040#32 0x1060#32)
      (windows [1073741824, 1073741824, 0, 0, 0, 0, 0, 0] [0, 0, 0, 0, 0, 0, 0, 0] [1, 1, 1, 1, 1, 1, 1, 1])) =
      some (.idle, 0x80000000#32, 0x00000000#32) := by decide

/-- D-5: -2^31 times -1 wraps to -2^31. -/
theorem test_dotprod8Horiz_extreme :
    result (exec (.dotprod8Horiz 0x1000#32 0x1020#32 0x1040#32 0x1060#32)
      (windows (List.replicate 8 (-2147483648)) (List.replicate 8 2147483647) (List.replicate 8 (-1)))) =
      some (.idle, 0x00000000#32, 0x00000008#32) := by decide

/-! Faults (section 2.4): the phase after one step. -/

/-- X-1 and X-7: completes, also at the last admitted word pair. -/
theorem test_fault_none : phaseAfter (faultStart ⟨0, 0x4000, 0x4020, 0x4040, 0x4060⟩) = some .idle ∧
    phaseAfter (faultStart ⟨0, 0x4000, 0x4020, 0x4040, 0x4078⟩) = some .idle := by decide

/-- X-2 and X-3. -/
theorem test_fault_alias :
    phaseAfter (faultStart ⟨0, 0x4000, 0x4020, 0x4040, 0x401C⟩) = some (.faulted (.outputAlias 0x4000)) ∧
    phaseAfter (faultStart ⟨0, 0x4000, 0x4020, 0x4040, 0x403C⟩) = some (.faulted (.outputAlias 0x4020)) := by decide

/-- X-4 and X-5. -/
theorem test_fault_misaligned :
    phaseAfter (faultStart ⟨0, 0x4002, 0x4020, 0x4040, 0x4060⟩) = some (.faulted (.misalignedReference 0x4002)) ∧
    phaseAfter (faultStart ⟨0, 0x4001, 0x4020, 0x4040, 0x4020⟩) = some (.faulted (.misalignedReference 0x4001)) := by decide

/-- X-6 and X-8. -/
theorem test_fault_access :
    phaseAfter (faultStart ⟨0, 0x4000, 0x4020, 0x4040, 0x4080⟩) = some (.faulted (.accessFault 0x4080)) ∧
    phaseAfter (faultStart ⟨0, 0xFFFFFFE4, 0x4020, 0x4040, 0x4060⟩) = some (.faulted (.accessFault 0xFFFFFFE4)) := by decide

/-- X-9: decode outranks every address check. -/
theorem test_fault_illegal :
    phaseAfter (faultStart ⟨4, 0x4002, 0x4020, 0x4040, 0x4080⟩) = some (.faulted (.illegalCommand 4)) := by decide

/-- R121: the codes. -/
theorem test_fault_codes : (FaultCause.illegalCommand 3).code = 1 ∧ (FaultCause.misalignedReference 1).code = 2 ∧
    (FaultCause.accessFault 0).code = 3 ∧ (FaultCause.outputAlias 0).code = 4 := by decide

/-- X-11 and R100: a faulted block has no step, and neither has one with no command. -/
theorem test_no_step : nextOf (step { faultStart ⟨0, 0x4000, 0x4020, 0x4040, 0x4060⟩ with
      phase := .faulted (.outputAlias 0x4000) }) = none ∧ nextOf (step State.reset) = none := by decide

/-! Witnesses: for each statement with hypotheses, a concrete state and operands that meet all of them together. -/

/-- The command of X-1, in each of the three forms. -/
def w8 : Instr := .dotprod8 0x4000#32 0x4020#32 0x4040#32 0x4060#32
def wFloat : Instr := .dotprod8Float 0x4000#32 0x4020#32 0x4040#32 0x4060#32
def wHoriz : Instr := .dotprod8Horiz 0x4000#32 0x4020#32 0x4040#32 0x4060#32

/-- An idle block about to take it, all windows zero. -/
def wState : State := faultStart (encode w8)

/-- The same block after a fault. -/
def wFaulted : State := { wState with phase := .faulted (.outputAlias 0x4000) }

theorem witness_ResetLeavesFaultedAndIsTheOnlyWay : wFaulted.phase = .faulted (.outputAlias 0x4000) := rfl
theorem witness_FaultedBlockHasNoStep : wFaulted.phase = .faulted (.outputAlias 0x4000) := rfl

theorem witness_StepRunsTheDecodedCommand : wState.phase = .idle ∧ wState.program[wState.index]? = some (encode w8) ∧
    decode (encode w8) = .command w8 := by decide

/-- The illegal words of X-9, next in the list of an idle block. -/
theorem witness_StepRunsTheDecodedCommand_illegal :
    let s := faultStart ⟨4, 0x4002, 0x4020, 0x4040, 0x4080⟩
    s.phase = .idle ∧ s.program[s.index]? = some ⟨4, 0x4002, 0x4020, 0x4040, 0x4080⟩ ∧
      decode ⟨4, 0x4002, 0x4020, 0x4040, 0x4080⟩ = .illegal 4 := ⟨rfl, rfl, by decide⟩

theorem witness_CommandsActOnPhaseAndMemoryAlone : (∃ t, execute (encode w8) wState = .next t) ∧
    execute (encode w8) wFaulted = .fault (.blockFaulted (.outputAlias 0x4000)) := ⟨⟨_, rfl⟩, rfl⟩

theorem witness_PlacedWordIsTheOneRun :
    decodeTableWord 160 0x0000406000004040000040200000400000000001 = some wFloat := by decide

theorem witness_IllegalCommandRaisesItsFault : wState.phase = .idle ∧ IllegalCmd 3#32 ∧ IllegalCmd 4#32 ∧
    IllegalCmd 0xFFFFFFFF#32 ∧ ¬ IllegalCmd 2#32 := by decide

theorem witness_DecodeAndEncodeAgree : decodeBytes (encodeBytes wHoriz ++ [7]) = .command wHoriz [7] := by decide

theorem witness_Dotprod8WritesTheWrappedSums : wState.phase = .idle ∧ CallerContract wState.mem w8 := by decide
theorem witness_Dotprod8HorizWritesTheWrappedSums : wState.phase = .idle ∧ CallerContract wState.mem wHoriz := by decide
theorem witness_Dotprod8FloatWritesTheScaledSums : wState.phase = .idle ∧ CallerContract wState.mem wFloat := by decide
theorem witness_Dotprod8FloatIsTheNearestFloat : wState.phase = .idle ∧ CallerContract wState.mem wFloat := by decide

/-- At the boundary: the last admitted pair, and the result right before the windows, all three the same. -/
theorem witness_contract_last_pair :
    CallerContract wState.mem (.dotprod8 0x4000#32 0x4020#32 0x4040#32 0x4078#32) := by decide
theorem witness_contract_adjacent :
    CallerContract wState.mem (.dotprod8 0x4008#32 0x4008#32 0x4008#32 0x4000#32) := by decide

theorem witness_ZeroTapsGiveZero : wState.phase = .idle ∧ CallerContract wState.mem w8 ∧
    ∀ a, InWindow w8.href a → wState.mem.read a = some 0 := by
  refine ⟨rfl, by decide, fun a ha => ?_⟩
  have key : ∀ j < 32, wState.mem.read (0x4040 + j) = some 0 := by decide
  have h1 : 0x4040 ≤ a := ha.1
  have h2 : a < 0x4040 + 32 := ha.2
  have := key (a - 0x4040) (by omega)
  rwa [Nat.add_sub_cancel' h1] at this

theorem witness_SameSamplesGiveEqualHalves : wState.phase = .idle ∧
    CallerContract wState.mem (.dotprod8Float 0x4000#32 0x4000#32 0x4040#32 0x4060#32) := by decide

theorem witness_FaultsAreExactlyTheSpecifiedOnes : wState.phase = .idle ∧
    CommandFault wState.mem ⟨3, 1, 2, 3, 4⟩ (.illegalCommand 3) := ⟨rfl, rfl, by decide⟩

/-- X-4, X-6 and X-2: the other three causes. -/
theorem witness_fault_misaligned :
    CommandFault wState.mem ⟨0, 0x4002, 0x4020, 0x4040, 0x4060⟩ (.misalignedReference 0x4002) :=
  ⟨by decide, [], _, rfl, by decide, by simp⟩

/-- Ranges that pass the range check are not inaccessible. -/
theorem accessible_of_all {l : List (Word × Nat)} (h : l.all (fun p => isAccessible wState.mem p.1 p.2) = true) :
    ∀ p ∈ l, ¬ Inaccessible wState.mem p := by
  intro p hp
  rw [← not_isAccessible_iff]
  simp [List.all_eq_true.mp h p hp]

theorem witness_fault_access : CommandFault wState.mem ⟨0, 0x4000, 0x4020, 0x4040, 0x4080⟩ (.accessFault 0x4080) :=
  ⟨by decide, by simp [Cmd5.refs], 8, [(0x4000, 32), (0x4020, 32), (0x4040, 32)], [], rfl,
    (not_isAccessible_iff _ _).1 (by decide), accessible_of_all (by decide)⟩

theorem witness_fault_alias : CommandFault wState.mem ⟨0, 0x4000, 0x4020, 0x4040, 0x401C⟩ (.outputAlias 0x4000) :=
  ⟨by decide, by simp [Cmd5.refs], accessible_of_all (by decide), [], _, rfl, (overlapsInput_iff_sharesByte _ _).1 (by decide),
    by simp⟩

theorem witness_CompletesExactlyUnderTheContract : wState.phase = .idle ∧ CallerContract wState.mem wHoriz ∧
    ¬ CallerContract wState.mem (.dotprod8 0x4000#32 0x4020#32 0x4040#32 0x403C#32) := by decide

/-- X-5: misaligned and aliased; the misaligned reference decides. -/
theorem witness_MisalignedReferenceIsReportedFirst : wState.phase = .idle ∧
    FirstFailing (fun z : Word => z.toNat % 4 ≠ 0) [0x4001#32, 0x4020#32, 0x4040#32, 0x4020#32] 0x4001#32 :=
  ⟨rfl, [], _, rfl, by decide, by simp⟩

theorem witness_DataNeverDecidesAFault : wState.phase = .idle ∧ (wState.hostWriteWord 0x4000 5).phase = .idle ∧
    ∀ a, wState.mem.admits a = (wState.hostWriteWord 0x4000 5).mem.admits a := by
  refine ⟨rfl, rfl, fun a => ?_⟩
  simp

theorem witness_CommandsLeaveAllElseUnchanged : ∃ t, exec w8 wState = .next t ∧ t.phase = .idle :=
  ⟨_, rfl, rfl⟩

theorem witness_CommandsLeaveAllElseUnchanged_fault :
    ∃ t, exec (.dotprod8 0x4000#32 0x4020#32 0x4040#32 0x401C#32) wState = .next t ∧ t.phase ≠ .idle :=
  ⟨_, rfl, by decide⟩

theorem witness_StepKeepsAdmittedSetAndCommands : ∃ t, step wState = .next t := ⟨_, rfl⟩

/-- Two memories that agree on the taps and one channel's samples and differ in the other's. -/
theorem witness_ResultDependsOnItsWindowsAlone : CallerContract wState.mem w8 ∧
    CallerContract (wState.mem.writeWord 0x4020 9) w8 ∧ (∃ t, exec w8 wState = .next t) ∧
    (∃ t, exec w8 { wState with mem := wState.mem.writeWord 0x4020 9 } = .next t) ∧
    ∀ a, InWindow w8.rref a ∨ InWindow w8.href a → wState.mem.read a = (wState.mem.writeWord 0x4020 9).read a := by
  refine ⟨by decide, by decide, ⟨_, rfl⟩, ⟨_, rfl⟩, fun a ha => (Memory.read_writeWord_of_outside _ _ ?_).symm⟩
  rcases ha with ha | ha
  · have h2 : a < 0x4000 + 32 := ha.2
    omega
  · have h1 : 0x4040 ≤ a := ha.1
    omega

/-- The other clause: memories that differ in the real window alone. -/
theorem witness_imaginary_channel : CallerContract (wState.mem.writeWord 0x401C 9) w8 ∧
    ∀ a, InWindow w8.iref a ∨ InWindow w8.href a → wState.mem.read a = (wState.mem.writeWord 0x401C 9).read a := by
  refine ⟨by decide, fun a ha => (Memory.read_writeWord_of_outside _ _ ?_).symm⟩
  rcases ha with ha | ha
  · have h1 : 0x4020 ≤ a := ha.1
    omega
  · have h1 : 0x4040 ≤ a := ha.1
    omega

theorem witness_WordsAreStoredLittleEndian : ∀ j < 4, wState.mem.admits (0x407C + j) = true := by decide

theorem witness_InvariantAtReset : wState.mem.wf = true := by decide

theorem witness_EveryStepKeepsTheInvariant : wState.Inv ∧ ∃ t, step wState = .next t := by
  refine ⟨⟨by decide, by decide, ?_⟩, _, rfl⟩
  intro cause h
  cases h

theorem witness_ContractKeepingRunSucceeds : wState.mem.wf = true ∧
    ∀ i ∈ [w8, wFloat, wHoriz], CallerContract wState.mem i := by decide

/-- A float command after an integer one: the first result, at 0x4060, is the second's first two imaginary samples and, one
word on, overlaps its taps; the second's own result goes to 0x4000. -/
def wFirst : Instr := .dotprod8 0x4000#32 0x4020#32 0x4020#32 0x4060#32
def wSecond : Instr := .dotprod8Float 0x4020#32 0x4060#32 0x4044#32 0x4000#32

theorem witness_LaterCommandSeesEarlierResult :
    let s := ready wState.mem [encode wFirst, encode wSecond]
    s.phase = .idle ∧ s.program[s.index]? = some (encode wFirst) ∧ s.program[s.index + 1]? = some (encode wSecond) ∧
      CallerContract s.mem wFirst ∧ CallerContract s.mem wSecond := by
  refine ⟨rfl, rfl, rfl, ?_, ?_⟩
  · show CallerContract wState.mem wFirst; decide
  · show CallerContract wState.mem wSecond; decide

theorem witness_FailedRunGoesNoFurther :
    ∃ t, Host.Core.run core 1 (faultStart ⟨3, 0, 0, 0, 0⟩) = .next t ∧ t.Failed := ⟨_, rfl, by decide⟩

theorem witness_ShiftIsPerLaneBeforeTheSum : ∃ p : Lanes, (∀ k, (256 : Int) ∣ s32 (p k)) ∧ -2 ^ 31 ≤ laneSum p ∧
    laneSum p < 2 ^ 31 := ⟨fun _ => 256#32, by decide, by decide, by decide⟩

/-- The same of lane products, at the low end of the range: -2^31 in one lane, 0 in the others. -/
theorem witness_ShiftIsPerLaneBeforeTheSum_products : ∃ v hv : Lanes, (∀ k, (256 : Int) ∣ s32 (products v hv k)) ∧
    -2 ^ 31 ≤ laneSum (products v hv) ∧ laneSum (products v hv) < 2 ^ 31 :=
  ⟨![0x80000000#32, 0, 0, 0, 0, 0, 0, 0], fun _ => 1#32, by decide, by decide, by decide⟩

theorem witness_EverySummationOrderAgrees :
    (SumTree.lanes (.add (.add (.lane 7) (.add (.lane 0) (.lane 3))) (.add (.add (.lane 2) (.lane 1))
      (.add (.lane 5) (.add (.lane 6) (.lane 4)))))).Perm (List.finRange 8) := by decide

theorem witness_ConversionRoundsToNearestEven : (-2 ^ 31 : Int) ≤ -2 ^ 26 ∧ (-2 ^ 26 : Int) < 2 ^ 31 ∧
    |(-2 ^ 24 : Int)| ≤ 2 ^ 24 ∧ |(-2 ^ 26 : Int)| ≤ 2 ^ 26 := by decide

theorem witness_conversion_clauses : (-2 ^ 31 : Int) ≤ 2 ^ 31 - 1 ∧ (2 ^ 31 - 1 : Int) < 2 ^ 31 ∧ (2 ^ 31 - 1 : Int) ≠ 0 ∧
    |(0 : Int)| ≤ 2 ^ 24 ∧ |(2 ^ 24 : Int)| ≤ 2 ^ 24 ∧ |(2 ^ 26 : Int)| ≤ 2 ^ 26 := by decide

theorem witness_ScalingIsExact : (-2 ^ 31 : Int) ≤ -2 ^ 31 ∧ (-2 ^ 31 : Int) < 2 ^ 31 ∧ (-2 ^ 31 : Int) ≠ 0 := by decide

end Sys2Proof.Tests
end

/-! A word write byte by byte, and the word read back (spec 20_memory.md R41). -/

namespace Sys2Proof.Machine.Memory

/-- An admitted byte is the byte a word access takes. -/
theorem byteAt_of_read {m : Memory} {a : Nat} {b : Byte} (h : m.read a = some b) : m.byteAt a = b := by
  simp [byteAt, h]

/-- A word write puts byte `j` of the word at the `j`-th of its four addresses: the write made there is the one read, since
the other three are at other addresses. -/
theorem read_writeWord_byte {m : Memory} {a j : Nat} (v : Word) (hj : j < 4) (h : m.admits (a + j) = true) :
    (m.writeWord a v).read (a + j) = some (byteOfWord v j) := by
  simp only [writeWord]
  match j, hj with
  | 0, _ =>
    rw [read_write_of_ne _ _ (by omega), read_write_of_ne _ _ (by omega), read_write_of_ne _ _ (by omega)]
    exact read_write_same _ h
  | 1, _ =>
    rw [read_write_of_ne _ _ (by omega), read_write_of_ne _ _ (by omega)]
    exact read_write_same _ (by simpa using h)
  | 2, _ =>
    rw [read_write_of_ne _ _ (by omega)]
    exact read_write_same _ (by simpa using h)
  | 3, _ => exact read_write_same _ (by simpa using h)

/-- A word written at four admitted addresses is the word read there. -/
theorem readWord_writeWord_same {m : Memory} {a : Nat} (v : Word) (h : ∀ j < 4, m.admits (a + j) = true) :
    (m.writeWord a v).readWord a = v := by
  have byte (j : Nat) (hj : j < 4) : (m.writeWord a v).byteAt (a + j) = byteOfWord v j :=
    byteAt_of_read (read_writeWord_byte v hj (h j hj))
  calc (m.writeWord a v).readWord a
      = wordOfBytes (byteOfWord v 0) (byteOfWord v 1) (byteOfWord v 2) (byteOfWord v 3) := by
        rw [← byte 0 (by decide), ← byte 1 (by decide), ← byte 2 (by decide), ← byte 3 (by decide)]; rfl
    _ = v := wordOfBytes_byteOfWord v

end Sys2Proof.Machine.Memory

namespace Sys2Proof

/-- Settles O23, from the bytes a word write puts down, the word read back, and the write's frame. -/
theorem wordsAreStoredLittleEndian : Obligations.WordsAreStoredLittleEndian := by
  unfold Obligations.WordsAreStoredLittleEndian
  intro m a v h
  have byte (j : Nat) (hj : j < 4) : (m.writeWord a v).read (a + j) = some (byteOfWord v j) :=
    Machine.Memory.read_writeWord_byte v hj (h j hj)
  exact ⟨Machine.Memory.readWord_writeWord_same v h, byte 0 (by decide), byte 1 (by decide), byte 2 (by decide),
    byte 3 (by decide), fun _ hb => Machine.Memory.read_writeWord_of_outside m v hb⟩

end Sys2Proof

/-! The illegal `CMD` words by their fields, and what executing one does (spec 30_encoding.md R61, R64, R67,
60_exceptions.md R122). -/

namespace Sys2Proof

/-- The field `OP` is 3 exactly when the word is 3 modulo 4. -/
theorem opField_eq_three_iff (w : Word) : opField w = 3 ↔ w.toNat % 4 = 3 := by
  simp [opField, BitVec.toNat_eq]

/-- The field `RSV` is 0 exactly when the word is below 4. -/
theorem rsvField_eq_zero_iff (w : Word) : rsvField w = 0 ↔ w.toNat < 4 := by
  simp only [rsvField, BitVec.toNat_eq, BitVec.extractLsb'_toNat, Nat.shiftRight_eq_div_pow, BitVec.ofNat_eq_ofNat,
    BitVec.toNat_ofNat]
  omega

end Sys2Proof

namespace Sys2Proof.Machine

/-- Illegal by its fields is the same as not one of the three `CMD` words: below 4 the word is its `OP`, which is not 3. -/
theorem illegalCmd_iff (w : Word) : IllegalCmd w ↔ w ≠ 0#32 ∧ w ≠ 1#32 ∧ w ≠ 2#32 := by
  rw [IllegalCmd, ne_eq, rsvField_eq_zero_iff, opField_eq_three_iff]
  simp only [ne_eq, BitVec.toNat_eq, BitVec.toNat_ofNat]
  omega

/-- The decoder rejects a `CMD` word that is illegal by its fields, whatever the references. -/
theorem decode_of_illegalCmd {c : Cmd5} (h : IllegalCmd c.cmd) : decode c = .illegal c.cmd :=
  (decode_eq_illegal_iff c c.cmd).2 ⟨rfl, (illegalCmd_iff c.cmd).1 h⟩

/-- Five words that decode to an illegal command execute as one. -/
theorem execute_of_decode_illegal {c : Cmd5} {w : Word} (s : State) (h : decode c = .illegal w) :
    execute c s = execIllegal w s := by
  rw [execute, h]

end Sys2Proof.Machine

namespace Sys2Proof

/-- Settles O6: the fields give the same words as the decoder's table, and the rejected word's execution on an idle block
takes its fault. -/
theorem illegalCommandRaisesItsFault : Obligations.IllegalCommandRaisesItsFault := by
  unfold Obligations.IllegalCommandRaisesItsFault
  intro s c hs
  refine ⟨Machine.illegalCmd_iff c.cmd, fun hc => ?_⟩
  calc Machine.execute c s
      = Machine.execIllegal c.cmd s := Machine.execute_of_decode_illegal s (Machine.decode_of_illegalCmd hc)
    _ = .next (s.withFault (.illegalCommand c.cmd)) := Machine.execIllegal_of_idle hs

end Sys2Proof

/-! The lane multiply, the shift and the wrapping sums of the datapath (spec 40_datapath.md R81, R83, R84, R87, R88). -/

namespace Sys2Proof.Machine

/-! Lane multiply (R81). -/

/-- Bits `[31:0]` of a 64-bit product are the product of the bits `[31:0]` of its factors. -/
theorem extractLsb_mul_64 (x y : BitVec 64) :
    (x * y).extractLsb 31 0 = x.setWidth 32 * y.setWidth 32 := by
  rw [← BitVec.setWidth_mul x y (by decide), BitVec.setWidth_eq_extractLsb' (by decide)]
  rfl

/-- Sign extension to 64 bits keeps bits `[31:0]`. -/
theorem setWidth_signExtend_64 (a : Word) : (a.signExtend 64).setWidth 32 = a := by
  rw [← BitVec.signExtend_eq_setWidth_of_le _ (by decide)]
  apply BitVec.eq_of_toInt_eq
  rw [BitVec.toInt_signExtend, BitVec.toInt_signExtend_of_le (by decide)]
  exact BitVec.toInt_bmod_cancel a

/-- The lane product is the low half of the product of the sign-extended factors. -/
theorem mul32_eq_extractLsb_signExtend (a b : Word) :
    mul32 a b = (a.signExtend 64 * b.signExtend 64).extractLsb 31 0 := by
  rw [extractLsb_mul_64, setWidth_signExtend_64, setWidth_signExtend_64, mul32_eq_mul]

/-- The lane product is the low half of the product of the zero-extended factors. -/
theorem mul32_eq_extractLsb_zeroExtend (a b : Word) :
    mul32 a b = (a.zeroExtend 64 * b.zeroExtend 64).extractLsb 31 0 := by
  rw [extractLsb_mul_64, BitVec.setWidth_setWidth_of_le _ (by decide), BitVec.setWidth_setWidth_of_le _ (by decide),
    BitVec.setWidth_eq, BitVec.setWidth_eq, mul32_eq_mul]

/-- The lane product of unsigned readings, modulo 2^32. -/
theorem u32_mul32 (a b : Word) : u32 (mul32 a b) = u32 a * u32 b % 2 ^ 32 := by
  rw [mul32_eq_mul]
  exact BitVec.toNat_mul a b

/-! The shift (R83). -/

/-- The signed value of a shifted word is the floor quotient by 256: it is in range, so nothing wraps. -/
theorem s32_asr8 (p : Word) : s32 (asr8 p) = s32 p / 256 := by
  obtain ⟨hlo, hhi⟩ := s32_range p
  rw [asr8, Config.shift_eq]
  exact s32_wrap32 (by omega) (by omega)

/-- A shifted word is a 24-bit value. -/
theorem s32_asr8_range (p : Word) : -2 ^ 23 ≤ s32 (asr8 p) ∧ s32 (asr8 p) ≤ 2 ^ 23 - 1 := by
  obtain ⟨hlo, hhi⟩ := s32_range p
  rw [s32_asr8]
  omega

/-- The shift is the arithmetic right shift of the word by 8 places. -/
theorem asr8_eq_sshiftRight (p : Word) : asr8 p = p.sshiftRight 8 := by
  apply BitVec.eq_of_toInt_eq
  calc (asr8 p).toInt
      = p.toInt / 256 := s32_asr8 p
    _ = (p.sshiftRight 8).toInt := by rw [BitVec.toInt_sshiftRight, Int.shiftRight_eq_div_pow]; rfl

/-- Shifting right by 8 places is sign extension of bits `[31:8]`: bit `i` is bit `8 + i` of the word, or its sign bit past
the end. -/
theorem sshiftRight_8_eq_signExtend (p : Word) : p.sshiftRight 8 = (p.extractLsb 31 8).signExtend 32 := by
  ext i hi
  rw [BitVec.getElem_sshiftRight, BitVec.getElem_signExtend]
  by_cases h : i < 24
  · rw [dif_pos (by omega), dif_pos (by omega)]
    simp [BitVec.extractLsb, BitVec.getLsbD_eq_getElem (show 8 + i < 32 by omega)]
  · rw [dif_neg (by omega), dif_neg (by omega), BitVec.msb_extractLsb]
    simp [BitVec.msb]

/-! Wrapping sums (R84, R87, R88). -/

/-- FLAT as a way of adding: lane by lane from the left. -/
def flatOrder : SumTree :=
  .add (.add (.add (.add (.add (.add (.add (.lane 0) (.lane 1)) (.lane 2)) (.lane 3)) (.lane 4)) (.lane 5)) (.lane 6))
    (.lane 7)

/-- TREE as a way of adding: pairs, then pairs of pairs. -/
def treeOrder : SumTree :=
  .add (.add (.add (.lane 0) (.lane 1)) (.add (.lane 2) (.lane 3)))
    (.add (.add (.lane 4) (.lane 5)) (.add (.lane 6) (.lane 7)))

theorem eval_flatOrder (p : Lanes) : flatOrder.eval p = flat p := rfl

theorem eval_treeOrder (p : Lanes) : treeOrder.eval p = tree p := rfl

/-- Any way of adding gives the wrapped exact sum of the lanes it adds, repeated or missing ones too. -/
theorem eval_eq_wrap32_sum (p : Lanes) (w : SumTree) :
    w.eval p = wrap32 ((w.lanes.map fun k => s32 (p k)).sum) := by
  induction w with
  | lane k => simp [SumTree.eval, SumTree.lanes]
  | add l r ihl ihr =>
    rw [SumTree.eval, SumTree.lanes, add32_eq_add, ihl, ihr, List.map_append, List.sum_append, wrap32_add]

/-- Any way of adding that takes each lane once gives the wrapped exact sum: the sum of integers does not depend on order. -/
theorem eval_eq_wrap32_laneSum (p : Lanes) {w : SumTree} (h : w.lanes.Perm (List.finRange 8)) :
    w.eval p = wrap32 (laneSum p) := by
  rw [eval_eq_wrap32_sum, (h.map _).sum_eq, laneSum, Fin.sum_univ_def]

theorem flat_eq_wrap32_laneSum (p : Lanes) : flat p = wrap32 (laneSum p) := by
  rw [← eval_flatOrder, eval_eq_wrap32_laneSum p (by decide)]

theorem tree_eq_wrap32_laneSum (p : Lanes) : tree p = wrap32 (laneSum p) := by
  rw [← eval_treeOrder, eval_eq_wrap32_laneSum p (by decide)]

/-- The exact sum of the eight shifted lanes is eight times a lane's range at most. -/
theorem laneSum_shifted_range (p : Lanes) : -2 ^ 26 ≤ laneSum (shifted p) ∧ laneSum (shifted p) ≤ 2 ^ 26 - 8 := by
  have lo := Finset.card_nsmul_le_sum Finset.univ (fun k => s32 (shifted p k)) (-2 ^ 23)
    fun k _ => (s32_asr8_range (p k)).1
  have hi := Finset.sum_le_card_nsmul Finset.univ (fun k => s32 (shifted p k)) (2 ^ 23 - 1)
    fun k _ => (s32_asr8_range (p k)).2
  norm_num [laneSum] at lo hi ⊢
  exact ⟨lo, hi⟩

/-- The tree sum of the shifted lanes is exact: the exact sum is in the signed range. -/
theorem s32_tree_shifted (p : Lanes) : s32 (tree (shifted p)) = laneSum (shifted p) := by
  obtain ⟨hlo, hhi⟩ := laneSum_shifted_range p
  rw [tree_eq_wrap32_laneSum, s32_wrap32 (by omega) (by omega)]

end Sys2Proof.Machine

namespace Sys2Proof

open Machine

/-- Settles O29: the low half of a 64-bit product depends only on the low halves of its factors, whichever way they are
extended. -/
theorem laneProductKeepsLow32Bits : Obligations.LaneProductKeepsLow32Bits := by
  unfold Obligations.LaneProductKeepsLow32Bits
  refine ⟨fun samples taps k => rfl, fun a b => ?_, by decide, by decide⟩
  exact ⟨mul32_eq_extractLsb_signExtend a b, mul32_eq_extractLsb_zeroExtend a b, u32_mul32 a b⟩

/-- Settles O30: the shift is floor division by 256 on signed values and an arithmetic right shift on bits. -/
theorem shiftRoundsTowardNegativeInfinity : Obligations.ShiftRoundsTowardNegativeInfinity := by
  unfold Obligations.ShiftRoundsTowardNegativeInfinity
  intro p
  refine ⟨?_, (asr8_eq_sshiftRight p).trans (sshiftRight_8_eq_signExtend p), s32_asr8_range p⟩
  rw [s32_asr8]
  exact (Rat.floor_intCast_div_natCast (s32 p) 256).symm

/-- Settles O32: FLAT and TREE are two of the ways of adding, and every one of them wraps the same exact sum. -/
theorem everySummationOrderAgrees : Obligations.EverySummationOrderAgrees := by
  unfold Obligations.EverySummationOrderAgrees
  exact fun p => ⟨flat_eq_wrap32_laneSum p, tree_eq_wrap32_laneSum p, fun _ => eval_eq_wrap32_laneSum p⟩

/-- Settles O33: eight 24-bit lanes sum to a 27-bit integer, which a word holds. -/
theorem shiftedSumNeverWraps : Obligations.ShiftedSumNeverWraps := by
  unfold Obligations.ShiftedSumNeverWraps
  exact fun p => ⟨s32_tree_shifted p, laneSum_shifted_range p⟩

/-- Settles O31: wrapping addition is the addition of words, a commutative group's. -/
theorem additionWrapsModulo2To32 : Obligations.AdditionWrapsModulo2To32 := by
  unfold Obligations.AdditionWrapsModulo2To32
  intro a b c
  refine ⟨?_, rfl, ?_, ?_⟩
  · rw [add32_eq_add]
    exact BitVec.toNat_add a b
  · simp only [add32_eq_add, BitVec.add_assoc]
  · rw [add32_eq_add, add32_eq_add, BitVec.add_comm]

end Sys2Proof

/-! The two integer commands compute the same words (spec 41_dotprod.md R101, R103, R104). -/

namespace Sys2Proof.Machine

/-- R87 for the two orders the commands use: FLAT and TREE wrap the same exact sum. -/
theorem tree_eq_flat (p : Lanes) : tree p = flat p :=
  (tree_eq_wrap32_laneSum p).trans (flat_eq_wrap32_laneSum p).symm

/-- The two integer commands differ only in the reduction of a channel's products. -/
theorem computeDotprod8Horiz_eq_computeDotprod8 : computeDotprod8Horiz = computeDotprod8 := by
  funext rv iv hv
  exact Prod.ext (tree_eq_flat (products rv hv)) (tree_eq_flat (products iv hv))

end Sys2Proof.Machine

namespace Sys2Proof

open Machine

/-- Settles O34: both commands run the one execution frame of R100, on the same compute function. -/
theorem integerCommandsCannotBeToldApart : Obligations.IntegerCommandsCannotBeToldApart := by
  unfold Obligations.IntegerCommandsCannotBeToldApart
  refine ⟨fun rv iv hv => by rw [computeDotprod8Horiz_eq_computeDotprod8], fun s r i h y => ?_⟩
  calc exec (.dotprod8Horiz r i h y) s
      = onBlock (runCommand computeDotprod8Horiz r i h y) s := exec_eq_onBlock _ s
    _ = onBlock (runCommand computeDotprod8 r i h y) s := by rw [computeDotprod8Horiz_eq_computeDotprod8]
    _ = exec (.dotprod8 r i h y) s := (exec_eq_onBlock (.dotprod8 r i h y) s).symm

end Sys2Proof

/-! The reference checks find the first reference that fails, and a command faults by the first check that does (spec
60_exceptions.md R121 to R127). -/

namespace Sys2Proof.Machine

/-! Each check as the first failing entry of its list (R123, R124, R125). -/

/-- A list search stops at the first failing entry, where the test decides the failure. -/
theorem find?_eq_some_iff_firstFailing {α : Type} {test : α → Bool} {fails : α → Prop}
    (htest : ∀ z, test z = true ↔ fails z) (l : List α) (x : α) :
    l.find? test = some x ↔ FirstFailing fails l x := by
  rw [List.find?_eq_some_iff_append]
  simp only [FirstFailing, Bool.not_eq_true', Bool.eq_false_iff, ne_eq, htest]
  constructor
  · rintro ⟨hx, before, after, rfl, hbefore⟩
    exact ⟨before, after, rfl, hx, hbefore⟩
  · rintro ⟨before, after, rfl, hx, hbefore⟩
    exact ⟨hx, before, after, rfl, hbefore⟩

theorem firstMisaligned_eq_some_iff {r i h y x : Word} :
    firstMisaligned r i h y = some x ↔ FirstFailing (fun z => z.toNat % 4 ≠ 0) [r, i, h, y] x :=
  find?_eq_some_iff_firstFailing isMisaligned_iff _ x

theorem firstMisaligned_eq_none_iff {r i h y : Word} :
    firstMisaligned r i h y = none ↔ ∀ z ∈ [r, i, h, y], z.toNat % 4 = 0 := by
  simp only [firstMisaligned, List.find?_eq_none, isMisaligned_iff, not_not]

theorem firstInaccessible_eq_some_iff {m : Memory} {r i h y x : Word} :
    firstInaccessible m r i h y = some x ↔
      ∃ n, FirstFailing (Inaccessible m) [(r, 32), (i, 32), (h, 32), (y, 8)] (x, n) := by
  rw [firstInaccessible, Option.map_eq_some_iff]
  simp only [find?_eq_some_iff_firstFailing (not_isAccessible_iff m)]
  constructor
  · rintro ⟨⟨_, n⟩, hx, rfl⟩
    exact ⟨n, hx⟩
  · rintro ⟨n, hx⟩
    exact ⟨(x, n), hx, rfl⟩

theorem firstInaccessible_eq_none_iff {m : Memory} {r i h y : Word} :
    firstInaccessible m r i h y = none ↔
      ∀ p ∈ [(r, 32), (i, 32), (h, 32), (y, 8)], ¬ Inaccessible m p := by
  rw [firstInaccessible, Option.map_eq_none_iff, List.find?_eq_none]
  simp only [not_isAccessible_iff]
  rfl

theorem firstOverlapped_eq_some_iff {r i h y x : Word} :
    firstOverlapped r i h y = some x ↔ FirstFailing (SharesByte y) [r, i, h] x :=
  find?_eq_some_iff_firstFailing (overlapsInput_iff_sharesByte y) _ x

/-- A misaligned reference decides the checks before any other is made (R126). -/
theorem checkReferences_of_firstMisaligned {r i h y x : Word} (m : Memory) (hx : firstMisaligned r i h y = some x) :
    checkReferences m r i h y = some (.misalignedReference x) := by
  simp [checkReferences, hx]

/-- The three ways the checks fail, in their order (R126), and no other. -/
theorem checkReferences_eq_some_iff {m : Memory} {r i h y : Word} {cause : FaultCause} :
    checkReferences m r i h y = some cause ↔
      (∃ x, cause = .misalignedReference x ∧ firstMisaligned r i h y = some x) ∨
      (∃ x, cause = .accessFault x ∧ firstMisaligned r i h y = none ∧ firstInaccessible m r i h y = some x) ∨
      (∃ x, cause = .outputAlias x ∧ firstMisaligned r i h y = none ∧ firstInaccessible m r i h y = none ∧
        firstOverlapped r i h y = some x) := by
  refine ⟨checkReferences_cases, ?_⟩
  rintro (⟨x, rfl, h1⟩ | ⟨x, rfl, h1, h2⟩ | ⟨x, rfl, h1, h2, h3⟩)
  · exact checkReferences_of_firstMisaligned m h1
  · simp [checkReferences, h1, h2]
  · simp [checkReferences, h1, h2, h3]

/-! The five words of a legal command (R60, R62, R64). -/

@[simp] theorem refs_encode (i : Instr) : Cmd5.refs (encode i) = [i.rref, i.iref, i.href, i.yref] := by cases i <;> rfl

@[simp] theorem ranges_encode (i : Instr) :
    Cmd5.ranges (encode i) = [(i.rref, 32), (i.iref, 32), (i.href, 32), (i.yref, 8)] := by cases i <;> rfl

@[simp] theorem inputs_encode (i : Instr) : Cmd5.inputs (encode i) = [i.rref, i.iref, i.href] := by cases i <;> rfl

@[simp] theorem yref_encode (i : Instr) : (encode i).yref = i.yref := by cases i <;> rfl

theorem not_illegalCmd_encode (i : Instr) : ¬ IllegalCmd (encode i).cmd := by
  cases i <;> simp [illegalCmd_iff, encode, cmdDotprod8, cmdDotprod8Float, cmdDotprod8Horiz]

/-- Five words whose `CMD` word is legal are the words of a command. -/
theorem exists_eq_encode_of_not_illegalCmd {c : Cmd5} (hc : ¬ IllegalCmd c.cmd) : ∃ i, c = encode i := by
  obtain ⟨cmd, r, i, h, y⟩ := c
  have hcmd : cmd = cmdDotprod8 ∨ cmd = cmdDotprod8Float ∨ cmd = cmdDotprod8Horiz := by
    rw [illegalCmd_iff] at hc
    simp only [cmdDotprod8, cmdDotprod8Float, cmdDotprod8Horiz]
    tauto
  rcases hcmd with rfl | rfl | rfl
  · exact ⟨.dotprod8 r i h y, rfl⟩
  · exact ⟨.dotprod8Float r i h y, rfl⟩
  · exact ⟨.dotprod8Horiz r i h y, rfl⟩

/-- The words of a command execute as that command. -/
theorem execute_encode (i : Instr) (s : State) : execute (encode i) s = exec i s := by cases i <;> rfl

/-! The fault a command raises (R122 to R126), and that executing it takes that fault alone (R127). -/

/-- An illegal command raises its own fault and, its references not being examined, no other (R122). -/
theorem commandFault_iff_of_illegalCmd {m : Memory} {c : Cmd5} {cause : FaultCause} (hc : IllegalCmd c.cmd) :
    CommandFault m c cause ↔ cause = .illegalCommand c.cmd := by
  cases cause <;> simp [CommandFault, hc]

/-- A legal command raises the fault its reference checks decide. -/
theorem commandFault_encode_iff {m : Memory} {i : Instr} {cause : FaultCause} :
    CommandFault m (encode i) cause ↔ checkReferences m i.rref i.iref i.href i.yref = some cause := by
  rw [checkReferences_eq_some_iff]
  have legal := not_illegalCmd_encode i
  cases cause with
  | illegalCommand w => simp [CommandFault, legal]
  | misalignedReference x => simp [CommandFault, legal, firstMisaligned_eq_some_iff]
  | accessFault x =>
    simp [CommandFault, legal, firstMisaligned_eq_none_iff, firstInaccessible_eq_some_iff]
  | outputAlias x =>
    simp [CommandFault, legal, firstMisaligned_eq_none_iff, firstInaccessible_eq_none_iff, firstOverlapped_eq_some_iff]

/-- Two faults taken in one state that end in the same state are the same fault: `phase` records it. -/
theorem next_withFault_inj {s : State} {cause cause' : FaultCause} :
    (.next (s.withFault cause) : Host.Outcome State Fault Refusal) = .next (s.withFault cause') ↔ cause = cause' := by
  refine ⟨fun h => ?_, fun h => h ▸ rfl⟩
  have hstate : s.withFault cause = s.withFault cause' := Host.Outcome.next.inj h
  exact Phase.faulted.inj (congrArg (·.phase) hstate)

/-- A command on an idle block takes a fault exactly when its reference checks decide that fault. -/
theorem exec_eq_withFault_iff {i : Instr} {s : State} {cause : FaultCause} (hs : s.phase = .idle) :
    exec i s = .next (s.withFault cause) ↔ checkReferences s.mem i.rref i.iref i.href i.yref = some cause := by
  cases hc : checkReferences s.mem i.rref i.iref i.href i.yref with
  | some decided => rw [exec_faults hs hc, next_withFault_inj, Option.some.injEq]
  | none =>
    simp only [exec_completes hs hc, reduceCtorEq, iff_false, Host.Outcome.next.injEq]
    intro h
    have hphase : s.phase = .faulted cause := congrArg (·.phase) h
    rw [hs] at hphase
    cases hphase

/-- Five words on an idle block take exactly the fault the rules say they raise. -/
theorem execute_eq_withFault_iff {c : Cmd5} {s : State} {cause : FaultCause} (hs : s.phase = .idle) :
    execute c s = .next (s.withFault cause) ↔ CommandFault s.mem c cause := by
  by_cases hc : IllegalCmd c.cmd
  · rw [commandFault_iff_of_illegalCmd hc, execute_of_decode_illegal s (decode_of_illegalCmd hc), execIllegal_of_idle hs,
      next_withFault_inj, eq_comm]
  · obtain ⟨i, rfl⟩ := exists_eq_encode_of_not_illegalCmd hc
    rw [execute_encode, exec_eq_withFault_iff hs, commandFault_encode_iff]

end Sys2Proof.Machine

namespace Sys2Proof

open Machine

/-- Settles O16: the checks decide the fault the rules name, and there is one at most because execution has one outcome. -/
theorem faultsAreExactlyTheSpecifiedOnes : Obligations.FaultsAreExactlyTheSpecifiedOnes := by
  unfold Obligations.FaultsAreExactlyTheSpecifiedOnes
  refine fun s c hs => ⟨fun cause => execute_eq_withFault_iff hs, fun cause cause' h h' => ?_⟩
  have taken : execute c s = .next (s.withFault cause) := (execute_eq_withFault_iff hs).2 h
  have taken' : execute c s = .next (s.withFault cause') := (execute_eq_withFault_iff hs).2 h'
  exact next_withFault_inj.1 (taken.symm.trans taken')

/-- Settles O18: alignment is the first check of the execution frame, and it searches the references in order. -/
theorem misalignedReferenceIsReportedFirst : Obligations.MisalignedReferenceIsReportedFirst := by
  unfold Obligations.MisalignedReferenceIsReportedFirst
  intro s i x hs hx
  exact exec_faults hs (checkReferences_of_firstMisaligned s.mem (firstMisaligned_eq_some_iff.2 hx))

end Sys2Proof

/-! Reset gives an idle block with no command outstanding, and a faulted block has no step (spec 70_reset_and_hazards.md R140,
41_dotprod.md R100). -/

namespace Sys2Proof.Machine

/-- An empty command list leaves nothing outstanding, wherever the index stands. -/
theorem State.outstanding_of_program_nil {s : State} (h : s.program = []) : s.outstanding = [] := by
  simp [State.outstanding, h]

@[simp] theorem State.reset_outstanding : State.reset.outstanding = [] :=
  State.outstanding_of_program_nil State.reset_program

@[simp] theorem State.blockReset_outstanding (s : State) : s.blockReset.outstanding = [] :=
  State.outstanding_of_program_nil s.blockReset_program

/-- The step of a faulted block stops with the recorded cause, whatever the host has delivered (R100, R127). -/
theorem step_of_faulted {s : State} {cause : FaultCause} (hs : s.phase = .faulted cause) :
    step s = .fault (.blockFaulted cause) :=
  whenIdle_faulted hs

end Sys2Proof.Machine

namespace Sys2Proof

open Machine

/-- Settles O1: both resets set `phase` and empty the command list, and the step of a faulted block is a stop. -/
theorem resetLeavesFaultedAndIsTheOnlyWay : Obligations.ResetLeavesFaultedAndIsTheOnlyWay := by
  unfold Obligations.ResetLeavesFaultedAndIsTheOnlyWay
  refine ⟨State.reset_phase, State.reset_outstanding,
    fun s => ⟨s.blockReset_phase, s.blockReset_outstanding, s.blockReset_mem⟩, ?_⟩
  intro s cause hs t hstep
  have hstop : step s = .fault (.blockFaulted cause) := step_of_faulted hs
  rw [hstop] at hstep
  cases hstep

end Sys2Proof

/-! The decoder and the encoder on words and on bytes, and the assembler's words (spec 30_encoding.md R60 to R68). -/

namespace Sys2Proof

/-- The decoder answers a command for its own five words only (R67). -/
theorem decode_eq_command_iff {c : Cmd5} {i : Instr} : decode c = .command i ↔ c = encode i := by
  constructor
  · obtain ⟨cmd, r, ir, h, y⟩ := c
    intro hc
    unfold decode at hc
    split_ifs at hc with h0 h1 h2
    · cases hc; exact congrArg (Cmd5.mk · r ir h y) h0
    · cases hc; exact congrArg (Cmd5.mk · r ir h y) h1
    · cases hc; exact congrArg (Cmd5.mk · r ir h y) h2
  · rintro rfl
    cases i <;> rfl

theorem decode_encode (i : Instr) : decode (encode i) = .command i := decode_eq_command_iff.2 rfl

theorem length_bytesOfCmd5 (c : Cmd5) : (bytesOfCmd5 c).length = 20 := rfl

/-- Four bytes or more begin with the bytes of a word. -/
theorem exists_bytesOfWord_append {bs : List Byte} (h : 4 ≤ bs.length) : ∃ w rest, bs = bytesOfWord w ++ rest := by
  match bs, h with
  | b0 :: b1 :: b2 :: b3 :: rest, _ => exact ⟨wordOfBytes b0 b1 b2 b3, rest, by rw [bytesOfWord_wordOfBytes]; rfl⟩

/-- Twenty bytes or more begin with the bytes of five words. -/
theorem exists_bytesOfCmd5_append {bs : List Byte} (h : 20 ≤ bs.length) : ∃ c rest, bs = bytesOfCmd5 c ++ rest := by
  have hlen (w : Word) : (bytesOfWord w).length = 4 := rfl
  obtain ⟨w0, bs, rfl⟩ := exists_bytesOfWord_append (bs := bs) (by omega)
  simp only [List.length_append, hlen] at h
  obtain ⟨w1, bs, rfl⟩ := exists_bytesOfWord_append (bs := bs) (by omega)
  simp only [List.length_append, hlen] at h
  obtain ⟨w2, bs, rfl⟩ := exists_bytesOfWord_append (bs := bs) (by omega)
  simp only [List.length_append, hlen] at h
  obtain ⟨w3, bs, rfl⟩ := exists_bytesOfWord_append (bs := bs) (by omega)
  simp only [List.length_append, hlen] at h
  obtain ⟨w4, bs, rfl⟩ := exists_bytesOfWord_append (bs := bs) (by omega)
  exact ⟨⟨w0, w1, w2, w3, w4⟩, bs, by simp only [bytesOfCmd5, List.append_assoc]⟩

/-- Taking a command off a stream that begins with its bytes. -/
theorem takeCmd5_bytesOfCmd5 (c : Cmd5) (rest : List Byte) : takeCmd5 (bytesOfCmd5 c ++ rest) = some (c, rest) := by
  simp only [takeCmd5, bytesOfCmd5, List.append_assoc, takeWord_bytesOfWord]

/-- A command taken off a stream was its first 20 bytes: each of the five words was the next four. -/
theorem takeCmd5_eq_some {bs rest : List Byte} {c : Cmd5} (h : takeCmd5 bs = some (c, rest)) :
    bs = bytesOfCmd5 c ++ rest := by
  unfold takeCmd5 at h
  split at h
  · cases h
  next w0 bs1 h0 =>
  split at h
  · cases h
  next w1 bs2 h1 =>
  split at h
  · cases h
  next w2 bs3 h2 =>
  split at h
  · cases h
  next w3 bs4 h3 =>
  split at h
  · cases h
  next w4 bs5 h4 =>
  cases h
  rw [takeWord_eq_some h0, takeWord_eq_some h1, takeWord_eq_some h2, takeWord_eq_some h3, takeWord_eq_some h4]
  simp only [bytesOfCmd5, List.append_assoc]

/-- Fewer than 20 bytes hold no command, and 20 or more do (R66). -/
theorem takeCmd5_eq_none_iff {bs : List Byte} : takeCmd5 bs = none ↔ bs.length < 20 := by
  constructor
  · intro hnone
    by_contra hlen
    obtain ⟨c, rest, rfl⟩ := exists_bytesOfCmd5_append (not_lt.1 hlen)
    rw [takeCmd5_bytesOfCmd5] at hnone
    cases hnone
  · intro hlen
    cases htake : takeCmd5 bs with
    | none => rfl
    | some p =>
      rw [takeCmd5_eq_some htake, List.length_append, length_bytesOfCmd5] at hlen
      omega

/-- A stream decodes to a command exactly when that command's words are the ones taken off it. -/
theorem decodeBytes_eq_command_iff {bs rest : List Byte} {i : Instr} :
    decodeBytes bs = .command i rest ↔ takeCmd5 bs = some (encode i, rest) := by
  constructor
  · intro h
    unfold decodeBytes at h
    split at h
    · cases h
    next c rest' htake =>
    split at h
    next j hj =>
      cases h
      rw [htake, decode_eq_command_iff.1 hj]
    · cases h
  · intro htake
    simp only [decodeBytes, htake, decode_encode]

/-- A stream is cut short exactly when no command can be taken off it. -/
theorem decodeBytes_eq_truncated_iff {bs : List Byte} : decodeBytes bs = .truncated ↔ takeCmd5 bs = none := by
  unfold decodeBytes
  split
  next htake => simp only [htake]
  next c rest htake =>
    split <;> simp [htake]

/-- Settles O8: both directions of the byte decoder go through the one command taken off the stream. -/
theorem decodeAndEncodeAgree : Obligations.DecodeAndEncodeAgree := by
  unfold Obligations.DecodeAndEncodeAgree
  refine ⟨fun i rest => ?_, fun bs i rest h => ?_, fun bs => ?_⟩
  · exact decodeBytes_eq_command_iff.2 (takeCmd5_bytesOfCmd5 (encode i) rest)
  · exact takeCmd5_eq_some (decodeBytes_eq_command_iff.1 h)
  · exact decodeBytes_eq_truncated_iff.trans takeCmd5_eq_none_iff

/-- Settles O7: each word list is run through the decoder. -/
theorem specWordsDecode : Obligations.SpecWordsDecode := by
  unfold Obligations.SpecWordsDecode
  decide

/-- Settles O9: the assembler is run on the text. -/
theorem assemblerEmitsTheCommandWords : Obligations.AssemblerEmitsTheCommandWords := by
  unfold Obligations.AssemblerEmitsTheCommandWords
  decide

end Sys2Proof

/-! What executing five words and a step can do: a fault the rules name, or a completion under the caller's contract (spec
41_dotprod.md R100, 60_exceptions.md R120 to R127, 70_reset_and_hazards.md R143). -/

namespace Sys2Proof.Machine

/-! The next state of a command (R100, R143). -/

/-- A command answers a next state only from an idle block: the fault the rules name, or its result under the caller's
contract. -/
theorem exec_next_cases {i : Instr} {s t : State} (ht : exec i s = .next t) :
    s.phase = .idle ∧
      ((∃ cause, CommandFault s.mem (encode i) cause ∧ t = s.withFault cause) ∨
        (CallerContract s.mem i ∧
          t = { s with mem := resultMemory (computeOf i) s.mem i.rref i.iref i.href i.yref })) := by
  obtain ⟨hs, ⟨cause, hc, rfl⟩ | ⟨hc, rfl⟩⟩ := exec_next ht
  · exact ⟨hs, .inl ⟨cause, commandFault_encode_iff.2 hc, rfl⟩⟩
  · exact ⟨hs, .inr ⟨(checkReferences_eq_none_iff_contract s.mem i).1 hc, rfl⟩⟩

/-- A command on an idle block completes when its caller keeps the contract. -/
theorem exec_of_contract {i : Instr} {s : State} (hs : s.phase = .idle) (hc : CallerContract s.mem i) :
    exec i s = .next { s with mem := resultMemory (computeOf i) s.mem i.rref i.iref i.href i.yref } :=
  exec_completes hs ((checkReferences_eq_none_iff_contract s.mem i).2 hc)

/-- A command on an idle block faults when its caller breaks the contract. -/
theorem exec_of_not_contract {i : Instr} {s : State} (hs : s.phase = .idle) (hc : ¬ CallerContract s.mem i) :
    ∃ cause, exec i s = .next (s.withFault cause) := by
  rw [← checkReferences_eq_none_iff_contract, ← ne_eq, Option.ne_none_iff_exists'] at hc
  obtain ⟨cause, hcause⟩ := hc
  exact ⟨cause, exec_faults hs hcause⟩

/-- A command on an idle block answers a next state (R151). -/
theorem exists_exec_next {s : State} (i : Instr) (hs : s.phase = .idle) : ∃ t, exec i s = .next t := by
  by_cases hc : CallerContract s.mem i
  · exact ⟨_, exec_of_contract hs hc⟩
  · obtain ⟨cause, h⟩ := exec_of_not_contract hs hc
    exact ⟨_, h⟩

/-- The contract looks at the admitted set alone, never at a byte. -/
theorem callerContract_congr {m m' : Memory} (hm : ∀ a, m.admits a = m'.admits a) (i : Instr) :
    CallerContract m i ↔ CallerContract m' i := by
  rw [← checkReferences_eq_none_iff_contract, checkReferences_congr _ _ _ _ hm, checkReferences_eq_none_iff_contract]

/-- A completed command changes no byte outside its result range (R48). -/
theorem read_resultMemory_of_outside (f : Compute) (m : Memory) (r i h y : Word) {a : Nat} (ha : ¬ InResult y a) :
    (resultMemory f m r i h y).read a = m.read a := by
  rw [InResult, Config.resultBytes_eq] at ha
  exact Memory.read_storeResult_of_outside _ _ _ (by omega)

/-- A completed command leaves the admitted set as it was (R40). -/
@[simp] theorem admits_resultMemory (f : Compute) (m : Memory) (r i h y : Word) (a : Nat) :
    (resultMemory f m r i h y).admits a = m.admits a :=
  Memory.admits_storeResult _ _ _ _

/-- A completed command keeps the canonical form. -/
theorem wf_resultMemory (f : Compute) {m : Memory} (r i h y : Word) (hm : m.wf = true) :
    (resultMemory f m r i h y).wf = true :=
  Memory.wf_storeResult _ _ hm

/-- An input window of a command that keeps the contract shares no byte with its result. -/
theorem not_inResult_of_inWindow {m : Memory} {i : Instr} (hc : CallerContract m i) {a : Nat}
    (ha : InWindow i.rref a ∨ InWindow i.iref a ∨ InWindow i.href a) : ¬ InResult i.yref a := by
  obtain ⟨⟨-, -, dr, di, dh⟩, -⟩ := hc
  simp only [OutputApart, InWindow, InResult, Config.resultBytes_eq, Config.windowBytes_eq] at *
  omega

/-! The next state of five words and of a step (R64, R100). -/

/-- Five words that decode to a command execute as that command. -/
theorem execute_of_decode_command {c : Cmd5} {i : Instr} (s : State) (h : decode c = .command i) :
    execute c s = exec i s := by
  rw [execute, h]

/-- Five words answer a next state only from an idle block: the fault the rules name, or, when they are a command whose
caller keeps the contract, its result. -/
theorem execute_next_cases {c : Cmd5} {s t : State} (ht : execute c s = .next t) :
    s.phase = .idle ∧
      ((∃ cause, CommandFault s.mem c cause ∧ t = s.withFault cause) ∨
        ∃ i, c = encode i ∧ CallerContract s.mem i ∧
          t = { s with mem := resultMemory (computeOf i) s.mem i.rref i.iref i.href i.yref }) := by
  by_cases hc : IllegalCmd c.cmd
  · obtain ⟨hs, -⟩ := execute_next ht
    rw [execute_of_decode_illegal s (decode_of_illegalCmd hc), execIllegal_of_idle hs] at ht
    cases ht
    exact ⟨hs, .inl ⟨_, (commandFault_iff_of_illegalCmd hc).2 rfl, rfl⟩⟩
  · obtain ⟨i, rfl⟩ := exists_eq_encode_of_not_illegalCmd hc
    rw [execute_encode] at ht
    obtain ⟨hs, hfault | ⟨hi, rfl⟩⟩ := exec_next_cases ht
    · exact ⟨hs, .inl hfault⟩
    · exact ⟨hs, .inr ⟨i, rfl, hi, rfl⟩⟩

/-- Five words on an idle block answer a next state. -/
theorem exists_execute_next {s : State} (c : Cmd5) (hs : s.phase = .idle) : ∃ t, execute c s = .next t := by
  by_cases hc : IllegalCmd c.cmd
  · rw [execute_of_decode_illegal s (decode_of_illegalCmd hc)]
    exact ⟨_, execIllegal_of_idle hs⟩
  · obtain ⟨i, rfl⟩ := exists_eq_encode_of_not_illegalCmd hc
    rw [execute_encode]
    exact exists_exec_next i hs

/-- Five words on a faulted block have no step. -/
theorem execute_of_faulted {c : Cmd5} {s : State} {cause : FaultCause} (hs : s.phase = .faulted cause) :
    execute c s = .fault (.blockFaulted cause) := by
  cases hc : decode c with
  | command i => rw [execute_of_decode_command s hc, exec_of_faulted hs]
  | illegal w => rw [execute_of_decode_illegal s hc, execIllegal_of_faulted hs]

/-- A step from one state to the next takes the next command: to the fault it raises, or to its result. -/
theorem step_next_cases {s t : State} (ht : step s = .next t) :
    s.phase = .idle ∧ ∃ c, s.nextCommand = some c ∧
      ((∃ cause, CommandFault s.mem c cause ∧ t = s.advance.withFault cause) ∨
        ∃ i, c = encode i ∧ CallerContract s.mem i ∧
          t = { s.advance with mem := resultMemory (computeOf i) s.mem i.rref i.iref i.href i.yref }) := by
  obtain ⟨hs, c, hnext, hexec⟩ := step_next ht
  exact ⟨hs, c, hnext, (execute_next_cases hexec).2⟩

/-- A command is there to be taken exactly when the index is inside the list. -/
theorem State.exists_nextCommand_iff {s : State} : (∃ c, s.nextCommand = some c) ↔ s.index < s.program.length := by
  simp only [State.nextCommand, List.getElem?_eq_some_iff]
  exact ⟨fun ⟨_, h, _⟩ => h, fun h => ⟨_, h, rfl⟩⟩

/-- A command taken was inside the list. -/
theorem State.index_lt_of_nextCommand {s : State} {c : Cmd5} (h : s.nextCommand = some c) :
    s.index < s.program.length :=
  State.exists_nextCommand_iff.1 ⟨c, h⟩

/-! Commands as functions on the block's own state (R31). -/

/-- What five words do to the state of R31 alone. -/
def executeOnBlock (c : Cmd5) : BlockState → Host.Outcome BlockState Fault Refusal :=
  match decode c with
  | .command i => runCommand (computeOf i) i.rref i.iref i.href i.yref
  | .illegal w0 => runIllegal w0

/-- Executing five words is running them on the block's own state. -/
theorem execute_eq_onBlock (c : Cmd5) (s : State) : execute c s = onBlock (executeOnBlock c) s := by
  unfold execute executeOnBlock
  cases decode c with
  | command i => exact exec_eq_onBlock i s
  | illegal w0 => rfl

/-- A stop of a run on the block's state is a stop of the block. -/
theorem onBlock_fault {run : BlockState → Host.Outcome BlockState Fault Refusal} {s : State} {r : Fault}
    (h : onBlock run s = .fault r) : run s.toBlockState = .fault r := by
  unfold onBlock at h
  split at h
  · cases h
  · cases h; assumption
  · cases h

/-! A command placed as a word of the opcode table (R66; assumption log 8). -/

/-- A table word that decodes to a command puts that command's five words next in the list. -/
theorem withFetchWord_of_decodeTableWord {nbits w : Nat} {i : Instr} (s : State)
    (h : decodeTableWord nbits w = some i) : s.withFetchWord nbits w = s.placeCommand (encode i) := by
  unfold decodeTableWord at h
  split at h
  next j rest hj =>
    cases h
    simp only [State.withFetchWord, placeTableWord, decodeBytes_eq_command_iff.1 hj]
  · cases h
  · cases h

end Sys2Proof.Machine

namespace Sys2Proof

open Machine

/-- Settles O25: a step ends in the fault its command raises in a memory left as it was, or in an idle block with a result
stored. -/
theorem everyStepKeepsTheInvariant : Obligations.EveryStepKeepsTheInvariant := by
  unfold Obligations.EveryStepKeepsTheInvariant
  rintro s t ⟨hwf, -, -⟩ ht
  obtain ⟨hs, c, hnext, ⟨cause, hfault, rfl⟩ | ⟨i, -, -, rfl⟩⟩ := step_next_cases ht
  · refine ⟨hwf, State.index_lt_of_nextCommand hnext, fun cause' hcause' => ⟨s.index, c, rfl, hnext, ?_⟩⟩
    obtain rfl : cause = cause' := Phase.faulted.inj hcause'
    exact hfault
  · refine ⟨wf_resultMemory _ _ _ _ _ hwf, State.index_lt_of_nextCommand hnext, fun cause' hcause' => ?_⟩
    have hidle : s.phase = .faulted cause' := hcause'
    rw [hs] at hidle
    cases hidle

/-- Settles O2: the step stops on a faulted block, refuses with no command, and otherwise executes what is there. -/
theorem stepEnabledIffIdleAndDelivered : Obligations.StepEnabledIffIdleAndDelivered := by
  unfold Obligations.StepEnabledIffIdleAndDelivered
  intro s
  rw [← State.exists_nextCommand_iff]
  constructor
  · rintro ⟨t, ht⟩
    obtain ⟨hs, c, hnext, -⟩ := step_next ht
    exact ⟨hs, c, hnext⟩
  · rintro ⟨hs, c, hnext⟩
    rw [step_of_nextCommand hs hnext]
    exact exists_execute_next c hs

/-- Settles O3: the step and every meaning look at `phase` first. -/
theorem faultedBlockHasNoStep : Obligations.FaultedBlockHasNoStep := by
  unfold Obligations.FaultedBlockHasNoStep
  exact fun s cause hs => ⟨step_of_faulted hs, fun i => exec_of_faulted hs, fun c => execute_of_faulted hs⟩

/-- Settles O4: the step executes the words at the index, and execution goes by what they decode to. -/
theorem stepRunsTheDecodedCommand : Obligations.StepRunsTheDecodedCommand := by
  unfold Obligations.StepRunsTheDecodedCommand
  intro s c hs hnext
  have hstep : step s = execute c s.advance := step_of_nextCommand hs hnext
  refine ⟨hstep, fun i hi => hstep.trans (execute_of_decode_command _ hi), fun w hw => ?_⟩
  calc step s
      = execIllegal w s.advance := hstep.trans (execute_of_decode_illegal _ hw)
    _ = .next (s.advance.withFault (.illegalCommand w)) := execIllegal_of_idle hs

/-- Settles O5: the words placed are the ones the next step takes, and placing them sets `phase` and the list alone. -/
theorem placedWordIsTheOneRun : Obligations.PlacedWordIsTheOneRun := by
  unfold Obligations.PlacedWordIsTheOneRun
  intro s nbits w i hi
  rw [withFetchWord_of_decodeTableWord s hi]
  refine ⟨?_, s.placeCommand_mem _, s.placeCommand_index _⟩
  rw [step_of_nextCommand (s.placeCommand_phase _) (s.placeCommand_nextCommand _), execute_encode]

/-- Settles O39: executing five words runs them on `phase` and `mem`, and puts the rest back as it was. -/
theorem commandsActOnPhaseAndMemoryAlone : Obligations.CommandsActOnPhaseAndMemoryAlone := by
  unfold Obligations.CommandsActOnPhaseAndMemoryAlone
  intro s c program index
  simp only [execute_eq_onBlock]
  refine ⟨fun t ht => ?_, fun r hr => ?_⟩
  · obtain ⟨b, hb, rfl⟩ := onBlock_next ht
    exact ⟨rfl, rfl, onBlock_of_next hb⟩
  · have hb : executeOnBlock c s.toBlockState = .fault r := onBlock_fault hr
    exact onBlock_of_fault hb

/-- Settles O24: the empty memory is canonical, and an idle block has no fault to explain. -/
theorem invariantAtReset : Obligations.InvariantAtReset := by
  unfold Obligations.InvariantAtReset
  refine ⟨⟨Memory.wf_reset, Nat.le_refl 0, ?_⟩, fun cs m hm => ⟨hm, Nat.zero_le _, ?_⟩⟩
  · intro cause h
    cases h
  · intro cause h
    cases h

/-- Settles O17: an idle block completes under the contract and takes a fault without it, and no state is both idle and
faulted. -/
theorem completesExactlyUnderTheContract : Obligations.CompletesExactlyUnderTheContract := by
  unfold Obligations.CompletesExactlyUnderTheContract
  intro s i hs
  by_cases hc : CallerContract s.mem i
  · have completes := exec_of_contract hs hc
    refine ⟨iff_of_true hc ⟨_, completes, hs⟩, iff_of_false (not_not_intro hc) ?_⟩
    rintro ⟨t, cause, ht, hphase⟩
    rw [completes] at ht
    cases ht
    exact Phase.noConfusion (hs.symm.trans hphase)
  · obtain ⟨cause, faults⟩ := exec_of_not_contract hs hc
    refine ⟨iff_of_false hc ?_, iff_of_true hc ⟨_, cause, faults, s.withFault_phase cause⟩⟩
    rintro ⟨t, ht, hphase⟩
    rw [faults] at ht
    cases ht
    cases hphase

/-- Settles O19: the checks look at the admitted set alone. -/
theorem dataNeverDecidesAFault : Obligations.DataNeverDecidesAFault := by
  unfold Obligations.DataNeverDecidesAFault
  intro s s' i hs hs' hm
  have hchecks := checkReferences_congr i.rref i.iref i.href i.yref hm
  cases hc : checkReferences s.mem i.rref i.iref i.href i.yref with
  | some cause => exact ⟨_, _, exec_faults hs hc, exec_faults hs' (hchecks ▸ hc), rfl⟩
  | none => exact ⟨_, _, exec_completes hs hc, exec_completes hs' (hchecks ▸ hc), hs.trans hs'.symm⟩

/-- Settles O20: a fault changes `phase` alone, and a completion stores the result, which the contract keeps off the input
windows. -/
theorem commandsLeaveAllElseUnchanged : Obligations.CommandsLeaveAllElseUnchanged := by
  unfold Obligations.CommandsLeaveAllElseUnchanged
  intro i s t ht
  obtain ⟨hs, ⟨cause, -, rfl⟩ | ⟨hc, rfl⟩⟩ := exec_next_cases ht
  · exact ⟨rfl, rfl, fun a _ => rfl, fun _ a _ => rfl, fun _ => rfl⟩
  · refine ⟨rfl, rfl, fun a ha => ?_, fun _ a ha => ?_, fun h => absurd hs h⟩
    · exact read_resultMemory_of_outside _ _ _ _ _ _ ha
    · exact read_resultMemory_of_outside _ _ _ _ _ _ (not_inResult_of_inWindow hc ha)

/-- Settles O21: a step ends with the memory as it was or with a result stored, and a store admits nothing new. -/
theorem stepKeepsAdmittedSetAndCommands : Obligations.StepKeepsAdmittedSetAndCommands := by
  unfold Obligations.StepKeepsAdmittedSetAndCommands
  intro s t ht
  obtain ⟨-, c, -, ⟨cause, -, rfl⟩ | ⟨i, -, -, rfl⟩⟩ := step_next_cases ht
  · exact ⟨fun a => rfl, rfl, rfl⟩
  · exact ⟨fun a => admits_resultMemory _ _ _ _ _ _ a, rfl, rfl⟩

end Sys2Proof

/-! The result words in memory: what a completed command stores, and what its words depend on (spec 20_memory.md R43, R49,
41_dotprod.md R100 to R103). -/

namespace Sys2Proof.Machine

/-! The two result words read back after a store (R43). -/

/-- The first result word after a store at eight admitted bytes. -/
theorem readWord_storeResult_fst {m : Memory} {y : Word} (r : Word × Word)
    (h : AdmittedRange m y Config.resultBytes) : (storeResult m y r).readWord y.toNat = r.1 := by
  rw [Config.resultBytes_eq] at h
  have second_apart (j : Nat) (hj : j < 4) : (storeResult m y r).read (y.toNat + j) =
      (m.writeWord (elementAddr y 0) r.1).read (y.toNat + j) :=
    Memory.read_writeWord_of_outside _ _ (by simp only [elementAddr, Config.wordBytes_eq]; omega)
  rw [Memory.readWord_congr second_apart]
  exact Memory.readWord_writeWord_same r.1 fun j hj => h j (by omega)

/-- The second result word after a store at eight admitted bytes. -/
theorem readWord_storeResult_snd {m : Memory} {y : Word} (r : Word × Word)
    (h : AdmittedRange m y Config.resultBytes) : (storeResult m y r).readWord (y.toNat + 4) = r.2 := by
  rw [Config.resultBytes_eq] at h
  refine Memory.readWord_writeWord_same r.2 fun j hj => ?_
  rw [Memory.admits_writeWord, show elementAddr y 1 + j = y.toNat + (4 + j) from Nat.add_assoc _ _ _]
  exact h (4 + j) (by omega)

/-! What the commands compute, from the exact sums of memory's words (R101, R102, R103). -/

/-- Wrapping turns a sum over the lanes into a sum of words. -/
theorem wrap32_sum (f : Fin Config.nLanes → Int) : wrap32 (∑ k, f k) = ∑ k, wrap32 (f k) :=
  map_sum (AddMonoidHom.mk' wrap32 wrap32_add) f Finset.univ

/-- The products kept to 32 bits have the exact products' sum, modulo 2^32. -/
theorem wrap32_laneSum_products (m : Memory) (x h : Word) :
    wrap32 (laneSum (products (loadWindow m x) (loadWindow m h))) = wrap32 (windowDot m x h) :=
  calc wrap32 (laneSum (products (loadWindow m x) (loadWindow m h)))
      = ∑ k, products (loadWindow m x) (loadWindow m h) k := by simp only [laneSum, wrap32_sum, wrap32_s32]
    _ = wrap32 (windowDot m x h) := (wrap32_sum _).symm

/-- The shifted products have the sum of the float command's integer path. -/
theorem laneSum_shifted_products (m : Memory) (x h : Word) :
    laneSum (shifted (products (loadWindow m x) (loadWindow m h))) = windowShiftedDot m x h :=
  Finset.sum_congr rfl fun _ _ => s32_asr8 _

/-- The float command converts the sum of the shifted lanes (R88, R102). -/
theorem convert_tree_shifted (p : Lanes) : convert (tree (shifted p)) = scale15 (rne32 (laneSum (shifted p))) := by
  rw [convert, s32_tree_shifted]

/-- Every command computes the result word owed for each channel. -/
theorem computeOf_loadWindow (i : Instr) (m : Memory) (r ir h : Word) :
    computeOf i (loadWindow m r) (loadWindow m ir) (loadWindow m h) = (resultWord i m r h, resultWord i m ir h) := by
  cases i with
  | dotprod8 =>
    simp only [computeOf, computeDotprod8, resultWord, flat_eq_wrap32_laneSum, wrap32_laneSum_products]
  | dotprod8Float =>
    simp only [computeOf, computeDotprod8Float, resultWord, convert_tree_shifted, laneSum_shifted_products]
  | dotprod8Horiz =>
    simp only [computeOf, computeDotprod8Horiz, resultWord, tree_eq_wrap32_laneSum, wrap32_laneSum_products]

/-- Under the caller's contract a command on an idle block completes: its two result words are in memory, and every other
byte is as before. -/
theorem exec_writes_resultWords {i : Instr} {s : State} (hs : s.phase = .idle) (hc : CallerContract s.mem i) :
    ∃ m, exec i s = .next { s with mem := m } ∧
      m.readWord i.yref.toNat = resultWord i s.mem i.rref i.href ∧
      m.readWord (i.yref.toNat + 4) = resultWord i s.mem i.iref i.href ∧
      ∀ a, ¬ InResult i.yref a → m.read a = s.mem.read a := by
  obtain ⟨-, -, -, -, admitted⟩ := id hc
  refine ⟨_, exec_of_contract hs hc, ?_, ?_, fun a ha => read_resultMemory_of_outside _ _ _ _ _ _ ha⟩
  · rw [resultMemory, readWord_storeResult_fst _ admitted, computeOf_loadWindow]
  · rw [resultMemory, readWord_storeResult_snd _ admitted, computeOf_loadWindow]

/-- The same, of the next state a command has answered. -/
theorem resultWords_of_exec_next {i : Instr} {s t : State} (hc : CallerContract s.mem i) (ht : exec i s = .next t) :
    t.mem.readWord i.yref.toNat = resultWord i s.mem i.rref i.href ∧
      t.mem.readWord (i.yref.toNat + 4) = resultWord i s.mem i.iref i.href := by
  obtain ⟨hs, -⟩ := exec_next ht
  obtain ⟨m, hm, hre, him, -⟩ := exec_writes_resultWords hs hc
  rw [ht] at hm
  cases hm
  exact ⟨hre, him⟩

/-! What a result word depends on (R20, R82). -/

/-- Byte `j` of element `k` of a window lies in the window. -/
theorem inWindow_element (x : Word) (k : Fin Config.nLanes) {j : Nat} (hj : j < 4) :
    InWindow x (x.toNat + 4 * k + j) := by
  have hk : k.val < 8 := k.isLt
  simp only [InWindow, Config.windowBytes_eq]
  omega

/-- A word of a window depends on the window's bytes alone. -/
theorem readWord_element_congr {m m' : Memory} {x : Word} (h : ∀ a, InWindow x a → m.read a = m'.read a)
    (k : Fin Config.nLanes) : m.readWord (x.toNat + 4 * k) = m'.readWord (x.toNat + 4 * k) :=
  Memory.readWord_congr fun _ hj => h _ (inWindow_element x k hj)

/-- A result word depends on its samples and the taps alone. -/
theorem resultWord_congr (i : Instr) {m m' : Memory} {x h : Word}
    (hm : ∀ a, InWindow x a ∨ InWindow h a → m.read a = m'.read a) : resultWord i m x h = resultWord i m' x h := by
  have samples := readWord_element_congr fun a ha => hm a (.inl ha)
  have taps := readWord_element_congr fun a ha => hm a (.inr ha)
  have dot : windowDot m x h = windowDot m' x h := by simp only [windowDot, samples, taps]
  have shiftedDot : windowShiftedDot m x h = windowShiftedDot m' x h := by
    simp only [windowShiftedDot, samples, taps]
  cases i with
  | dotprod8 | dotprod8Horiz => exact congrArg wrap32 dot
  | dotprod8Float => exact congrArg (fun n => scale15 (rne32 n)) shiftedDot

/-- A word of four zero bytes is zero. -/
theorem readWord_of_zero {m : Memory} {a : Nat} (h : ∀ j < 4, m.read (a + j) = some 0) : m.readWord a = 0#32 := by
  have byte (j : Nat) (hj : j < 4) : m.byteAt (a + j) = 0 := Memory.byteAt_of_read (h j hj)
  calc m.readWord a
      = wordOfBytes (m.byteAt (a + 0)) (m.byteAt (a + 1)) (m.byteAt (a + 2)) (m.byteAt (a + 3)) := rfl
    _ = wordOfBytes 0 0 0 0 := by
        rw [byte 0 (by decide), byte 1 (by decide), byte 2 (by decide), byte 3 (by decide)]
    _ = 0#32 := by decide

/-- With all taps zero every lane product is zero, and so is the result word. -/
theorem resultWord_of_zero_taps (i : Instr) {m : Memory} (x : Word) {h : Word}
    (hm : ∀ a, InWindow h a → m.read a = some 0) : resultWord i m x h = 0#32 := by
  have taps (k : Fin Config.nLanes) : m.readWord (h.toNat + 4 * k) = 0#32 :=
    readWord_of_zero fun j hj => hm _ (inWindow_element h k hj)
  have dot : windowDot m x h = 0 := by simp [windowDot, taps, s32]
  have shiftedDot : windowShiftedDot m x h = 0 := by simp [windowShiftedDot, taps, s32, wrap32]
  cases i with
  | dotprod8 | dotprod8Horiz => exact congrArg wrap32 dot
  | dotprod8Float => exact congrArg (fun n => scale15 (rne32 n)) shiftedDot

end Sys2Proof.Machine

namespace Sys2Proof

open Machine

/-- Settles O10: the flat sum of the products kept to 32 bits wraps the exact sum. -/
theorem dotprod8WritesTheWrappedSums : Obligations.Dotprod8WritesTheWrappedSums := by
  unfold Obligations.Dotprod8WritesTheWrappedSums
  exact fun s r i h y hs hc => exec_writes_resultWords hs hc

/-- Settles O11: the tree sum wraps the same exact sum. -/
theorem dotprod8HorizWritesTheWrappedSums : Obligations.Dotprod8HorizWritesTheWrappedSums := by
  unfold Obligations.Dotprod8HorizWritesTheWrappedSums
  exact fun s r i h y hs hc => exec_writes_resultWords hs hc

/-- Settles O12: the tree sum of the shifted lanes is exact, so its conversion is that of the integer sum. -/
theorem dotprod8FloatWritesTheScaledSums : Obligations.Dotprod8FloatWritesTheScaledSums := by
  unfold Obligations.Dotprod8FloatWritesTheScaledSums
  exact fun s r i h y hs hc => exec_writes_resultWords hs hc

/-- Settles O14: both channels use the same zero taps. -/
theorem zeroTapsGiveZero : Obligations.ZeroTapsGiveZero := by
  unfold Obligations.ZeroTapsGiveZero
  intro s i hs hc hzero
  obtain ⟨m, hexec, hre, him, -⟩ := exec_writes_resultWords hs hc
  exact ⟨_, hexec, hre.trans (resultWord_of_zero_taps i _ hzero), him.trans (resultWord_of_zero_taps i _ hzero)⟩

/-- Settles O15: the two result words differ in their sample reference only. -/
theorem sameSamplesGiveEqualHalves : Obligations.SameSamplesGiveEqualHalves := by
  unfold Obligations.SameSamplesGiveEqualHalves
  intro s i hs hc hsame
  obtain ⟨m, hexec, hre, him, -⟩ := exec_writes_resultWords hs hc
  exact ⟨_, hexec, hre.trans (hsame ▸ him.symm)⟩

/-- Settles O22: each result word is the one its own two windows give. -/
theorem resultDependsOnItsWindowsAlone : Obligations.ResultDependsOnItsWindowsAlone := by
  unfold Obligations.ResultDependsOnItsWindowsAlone
  intro s s' t t' i hc hc' ht ht'
  obtain ⟨hre, him⟩ := resultWords_of_exec_next hc ht
  obtain ⟨hre', him'⟩ := resultWords_of_exec_next hc' ht'
  refine ⟨fun hm => ?_, fun hm => ?_⟩
  · rw [hre, hre', resultWord_congr i hm]
  · rw [him, him', resultWord_congr i hm]

end Sys2Proof

/-! Runs: commands in a row, and how a run ends (spec 70_reset_and_hazards.md R146, R149 to R151). -/

namespace Sys2Proof.Machine

/-- What a step that completes command `i` does: the block stays idle and moves on by one, and the command's result is in a
memory that is otherwise as it was. -/
structure CompletedStep (i : Instr) (s t : State) : Prop where
  phase : t.phase = .idle
  program : t.program = s.program
  index : t.index = s.index + 1
  admits : ∀ a, t.mem.admits a = s.mem.admits a
  wf : s.mem.wf = true → t.mem.wf = true
  realWord : t.mem.readWord i.yref.toNat = resultWord i s.mem i.rref i.href
  imagWord : t.mem.readWord (i.yref.toNat + 4) = resultWord i s.mem i.iref i.href
  frame : ∀ a, ¬ InResult i.yref a → t.mem.read a = s.mem.read a

/-- A step of an idle block completes the command it takes, when its caller keeps the contract. -/
theorem step_of_contract {s : State} {i : Instr} (hs : s.phase = .idle) (hnext : s.nextCommand = some (encode i))
    (hc : CallerContract s.mem i) : ∃ t, step s = .next t ∧ CompletedStep i s t := by
  have hexec := exec_of_contract (s := s.advance) hs hc
  obtain ⟨hre, him⟩ := resultWords_of_exec_next (s := s.advance) hc hexec
  refine ⟨_, by rw [step_of_nextCommand hs hnext, execute_encode, hexec], ?_⟩
  exact ⟨hs, rfl, rfl, admits_resultMemory _ _ _ _ _ _, wf_resultMemory _ _ _ _ _, hre, him,
    fun a ha => read_resultMemory_of_outside _ _ _ _ _ _ ha⟩

/-- A completed step keeps every contract. -/
theorem CompletedStep.contract {i : Instr} {s t : State} (h : CompletedStep i s t) {j : Instr}
    (hj : CallerContract s.mem j) : CallerContract t.mem j :=
  (callerContract_congr h.admits j).2 hj

section
variable (M : Host.Core) {s s' t : M.State}

/-- A run's first step, then the rest of it. -/
theorem run_succ_of_step (k : Nat) (h : M.step s = .next s') : M.run (k + 1) s = M.run k s' := by
  rw [Host.Core.run, h]

/-- A run whose first step is a stop has that stop. -/
theorem run_succ_of_fault {r : M.Fault} (k : Nat) (h : M.step s = .fault r) : M.run (k + 1) s = .fault r := by
  rw [Host.Core.run, h]

/-- A run of one step or more that answers a state took its first step. -/
theorem exists_step_of_run_succ {k : Nat} (h : M.run (k + 1) s = .next t) :
    ∃ s', M.step s = .next s' ∧ M.run k s' = .next t := by
  rw [Host.Core.run] at h
  split at h
  next s' hstep => exact ⟨s', hstep, h⟩
  · cases h
  · cases h

/-- A longer run goes on from where a shorter one ended. -/
theorem run_add {k : Nat} (j : Nat) (h : M.run k s = .next t) : M.run (k + j) s = M.run j t := by
  induction k generalizing s with
  | zero =>
    cases h
    rw [Nat.zero_add]
  | succ k ih =>
    obtain ⟨s', hstep, hrun⟩ := exists_step_of_run_succ M h
    rw [Nat.succ_add, run_succ_of_step M _ hstep, ih hrun]

end

/-- The first outstanding command is the next one taken, and the others are outstanding after it. -/
theorem State.outstanding_eq_cons {s : State} {c : Cmd5} {cs : List Cmd5} (h : s.outstanding = c :: cs) :
    s.nextCommand = some c ∧ s.advance.outstanding = cs := by
  simp only [State.outstanding, State.nextCommand, State.advance_program, State.advance_index] at *
  refine ⟨?_, ?_⟩
  · rw [← List.head?_drop, h, List.head?_cons]
  · rw [← List.tail_drop, h, List.tail_cons]

/-- A run over outstanding commands that all keep the contract: one step each, and only their result ranges change. -/
theorem run_of_contracts (is : List Instr) (s : State) (hs : s.phase = .idle) (hout : s.outstanding = is.map encode)
    (hc : ∀ i ∈ is, CallerContract s.mem i) (hwf : s.mem.wf = true) :
    ∃ t : State, Host.Core.run core is.length s = .next t ∧ t.phase = .idle ∧ t.program = s.program ∧
      t.index = s.index + is.length ∧ t.mem.wf = true ∧
      ∀ a, (∀ i ∈ is, ¬ InResult i.yref a) → t.mem.read a = s.mem.read a := by
  induction is generalizing s with
  | nil => exact ⟨s, rfl, hs, rfl, rfl, hwf, fun a _ => rfl⟩
  | cons i is ih =>
    obtain ⟨hnext, hrest⟩ := State.outstanding_eq_cons hout
    obtain ⟨hi, his⟩ := List.forall_mem_cons.1 hc
    obtain ⟨s', hstep, done⟩ := step_of_contract hs hnext hi
    have hout' : s'.outstanding = is.map encode := by rw [← hrest, State.outstanding, done.program, done.index]; rfl
    obtain ⟨t, hrun, hphase, hprogram, hindex, hmem, hframe⟩ :=
      ih s' done.phase hout' (fun j hj => done.contract (his j hj)) (done.wf hwf)
    refine ⟨t, (run_succ_of_step core _ hstep).trans hrun, hphase, hprogram.trans done.program, ?_, hmem, fun a ha => ?_⟩
    · rw [hindex, done.index, List.length_cons]
      omega
    · obtain ⟨hia, hisa⟩ := List.forall_mem_cons.1 ha
      exact (hframe a hisa).trans (done.frame a hia)

end Sys2Proof.Machine

namespace Sys2Proof

open Machine

/-- Settles O26, by the run over its outstanding commands, of which a run has them all at its start. -/
theorem contractKeepingRunSucceeds : Obligations.ContractKeepingRunSucceeds := by
  unfold Obligations.ContractKeepingRunSucceeds
  intro is m hwf hc
  obtain ⟨t, hrun, hphase, hprogram, hindex, hmem, hframe⟩ :=
    run_of_contracts is (State.startRun (is.map encode) m) rfl rfl hc hwf
  refine ⟨t, hrun, ⟨hphase, ?_⟩, hmem, hframe⟩
  rw [hindex, hprogram]
  simp [State.startRun]

/-- Settles O27: the first step keeps the second command's contract, and the second step starts from the memory the first one
left. -/
theorem laterCommandSeesEarlierResult : Obligations.LaterCommandSeesEarlierResult := by
  unfold Obligations.LaterCommandSeesEarlierResult
  intro s i j hs hi hj hci hcj
  obtain ⟨t, hstep, first⟩ := step_of_contract hs hi hci
  have hnext : t.nextCommand = some (encode j) := by rw [State.nextCommand, first.program, first.index, hj]
  obtain ⟨t', hstep', second⟩ := step_of_contract first.phase hnext (first.contract hcj)
  exact ⟨t, t', hstep, hstep', second.phase, first.realWord, first.imagWord, first.frame, second.realWord,
    second.imagWord⟩

/-- Settles O28: a run that has failed stands in a faulted block, whose next step is a stop. -/
theorem failedRunGoesNoFurther : Obligations.FailedRunGoesNoFurther := by
  unfold Obligations.FailedRunGoesNoFurther
  intro s t k hrun hfailed
  cases hphase : t.phase with
  | idle => exact absurd hphase hfailed
  | faulted cause =>
    refine ⟨cause, rfl, fun j => ?_⟩
    rw [Nat.add_assoc, run_add core (j + 1) hrun]
    exact run_succ_of_fault core j (step_of_faulted hphase)

end Sys2Proof

/-! Conversion to binary32, as numbers (spec 40_datapath.md R89, R94). -/

namespace Sys2Proof.Machine

/-! Rounding the quotient of a division by a power of two (R89). -/

/-- The rounded quotient is the quotient or one more. -/
theorem roundHalfEven_range (m d : Nat) : m / 2 ^ d ≤ roundHalfEven m d ∧ roundHalfEven m d ≤ m / 2 ^ d + 1 := by
  unfold roundHalfEven
  dsimp only
  split_ifs <;> omega

/-- Rounding leaves an exact quotient alone. -/
theorem roundHalfEven_of_dvd {m d : Nat} (h : 2 ^ d ∣ m) : roundHalfEven m d = m / 2 ^ d := by
  have hpos : 0 < 2 ^ d := by positivity
  simp [roundHalfEven, Nat.mod_eq_zero_of_dvd h, hpos.ne]

/-- The rounded quotient is nearest: off by at most half, and even where it is off by half. -/
theorem roundHalfEven_nearest (m d : Nat) :
    2 * |(m : Int) - roundHalfEven m d * 2 ^ d| ≤ 2 ^ d ∧
      (2 * |(m : Int) - roundHalfEven m d * 2 ^ d| = 2 ^ d → roundHalfEven m d % 2 = 0) := by
  have hm : (2 ^ d : Int) * (m / 2 ^ d : Nat) + (m % 2 ^ d : Nat) = m := by exact_mod_cast Nat.div_add_mod m (2 ^ d)
  have hrest : m % 2 ^ d < 2 ^ d := Nat.mod_lt _ (by positivity)
  have hpow : ((2 ^ d : Nat) : Int) = 2 ^ d := by push_cast; rfl
  have roundDown : (m : Int) - (m / 2 ^ d : Nat) * 2 ^ d = (m % 2 ^ d : Nat) := by linear_combination -hm
  have roundUp : (m : Int) - (m / 2 ^ d + 1 : Nat) * 2 ^ d = (m % 2 ^ d : Nat) - 2 ^ d := by
    push_cast at hm ⊢
    linear_combination -hm
  unfold roundHalfEven
  dsimp only
  split_ifs with habove htie
  · rw [roundUp, abs_of_nonpos (by omega)]
    omega
  · rcases Nat.mod_two_eq_zero_or_one (m / 2 ^ d) with heven | hodd
    · rw [heven, Nat.add_zero, roundDown, abs_of_nonneg (by omega)]
      omega
    · rw [hodd, roundUp, abs_of_nonpos (by omega)]
      omega
  · rw [roundDown, abs_of_nonneg (by omega)]
    omega

/-! The significand of a magnitude, rounded to 24 bits (R89). -/

/-- The 24-bit significand a magnitude is rounded to; 2^24 where rounding carries into the next exponent. -/
def significand (m : Nat) : Nat :=
  if Nat.log2 m ≤ 23 then m * 2 ^ (23 - Nat.log2 m) else roundHalfEven m (Nat.log2 m - 23)

/-- The weight of a significand's low bit, for magnitudes with this leading bit. -/
def ulp (e : Nat) : Rat := 2 ^ ((e : Int) - 23)

theorem ulp_pos (e : Nat) : 0 < ulp e := zpow_pos (by norm_num) _

theorem ulp_of_le {e : Nat} (h : e ≤ 23) : (2 : Rat) ^ (23 - e) * ulp e = 1 := by
  rw [ulp, ← zpow_natCast, ← zpow_add₀ (by norm_num), Nat.cast_sub h]
  simp

theorem ulp_of_ge {e : Nat} (h : 23 ≤ e) : ulp e = 2 ^ (e - 23) := by
  rw [ulp, ← zpow_natCast, Nat.cast_sub h]
  rfl

/-- The leading bit of a magnitude, in units of its significand. -/
theorem two_pow_eq_ulp (e : Nat) : (2 : Rat) ^ e = 2 ^ 23 * ulp e := by
  rw [ulp, zpow_sub₀ (by norm_num), zpow_natCast]
  norm_num
  ring

theorem significand_of_le {m : Nat} (h : Nat.log2 m ≤ 23) : significand m = m * 2 ^ (23 - Nat.log2 m) := if_pos h

theorem significand_of_gt {m : Nat} (h : 23 < Nat.log2 m) : significand m = roundHalfEven m (Nat.log2 m - 23) :=
  if_neg (Nat.not_le.2 h)

/-- A magnitude below 2^24 keeps all its bits, and so fits 24 of them. -/
theorem significand_lt_of_le {m : Nat} (h : Nat.log2 m ≤ 23) : significand m < 2 ^ 24 := by
  rw [significand_of_le h]
  calc m * 2 ^ (23 - Nat.log2 m)
      < 2 ^ (Nat.log2 m + 1) * 2 ^ (23 - Nat.log2 m) := Nat.mul_lt_mul_of_pos_right Nat.lt_log2_self (by positivity)
    _ = 2 ^ 24 := by rw [← pow_add]; congr 1; omega

/-- The significand of a magnitude that is not 0 has its leading bit in place 23, or has carried to 2^24. -/
theorem significand_range {m : Nat} (hm : m ≠ 0) : 2 ^ 23 ≤ significand m ∧ significand m ≤ 2 ^ 24 := by
  have lower : 2 ^ Nat.log2 m ≤ m := Nat.log2_self_le hm
  have upper : m < 2 ^ (Nat.log2 m + 1) := Nat.lt_log2_self
  rcases Nat.lt_or_ge 23 (Nat.log2 m) with h | h
  · obtain ⟨d, hd⟩ := Nat.exists_eq_add_of_lt h
    rw [significand_of_gt h, show Nat.log2 m - 23 = d + 1 by omega]
    rw [show Nat.log2 m = 23 + (d + 1) by omega, pow_add] at lower
    rw [show Nat.log2 m + 1 = 24 + (d + 1) by omega, pow_add] at upper
    have hlo : 2 ^ 23 ≤ m / 2 ^ (d + 1) := (Nat.le_div_iff_mul_le (by positivity)).2 lower
    have hhi : m / 2 ^ (d + 1) < 2 ^ 24 := (Nat.div_lt_iff_lt_mul (by positivity)).2 upper
    obtain ⟨hge, hle⟩ := roundHalfEven_range m (d + 1)
    omega
  · refine ⟨?_, (significand_lt_of_le h).le⟩
    calc 2 ^ 23
        = 2 ^ Nat.log2 m * 2 ^ (23 - Nat.log2 m) := by rw [← pow_add]; congr 1; omega
      _ ≤ m * 2 ^ (23 - Nat.log2 m) := Nat.mul_le_mul_right _ lower
      _ = significand m := (significand_of_le h).symm

/-- A magnitude below 2^24, and any other whose bits past the 24th are 0, is its significand exactly. -/
theorem significand_of_dvd {m : Nat} (h : 2 ^ (Nat.log2 m - 23) ∣ m) :
    (significand m : Rat) * ulp (Nat.log2 m) = m := by
  rcases Nat.lt_or_ge 23 (Nat.log2 m) with hgt | hle
  · rw [significand_of_gt hgt, roundHalfEven_of_dvd h, ulp_of_ge hgt.le]
    exact_mod_cast Nat.div_mul_cancel h
  · rw [significand_of_le hle]
    push_cast
    rw [mul_assoc, ulp_of_le hle, mul_one]

/-- The significand is nearest: off by at most half its low bit, and even where it is off by half. -/
theorem significand_nearest (m : Nat) :
    2 * |(m : Rat) - significand m * ulp (Nat.log2 m)| ≤ ulp (Nat.log2 m) ∧
      (2 * |(m : Rat) - significand m * ulp (Nat.log2 m)| = ulp (Nat.log2 m) → significand m % 2 = 0) := by
  rcases Nat.lt_or_ge 23 (Nat.log2 m) with hgt | hle
  · rw [significand_of_gt hgt, ulp_of_ge hgt.le]
    exact_mod_cast roundHalfEven_nearest m (Nat.log2 m - 23)
  · have exact : (significand m : Rat) * ulp (Nat.log2 m) = m :=
      significand_of_dvd (by rw [Nat.sub_eq_zero_of_le hle]; exact one_dvd _)
    have hpos := ulp_pos (Nat.log2 m)
    rw [exact, sub_self, abs_zero, mul_zero]
    exact ⟨hpos.le, fun h => absurd h hpos.ne⟩

/-! The pattern packed from a rounded significand. -/

/-- The pattern of a rounded significand, which may have carried to 2^24. -/
def packRounded (s : Bool) (e q : Nat) : Word :=
  if q = 2 ^ 24 then packFloat s (e + 1) (2 ^ 23) else packFloat s e q

theorem packRounded_carry (s : Bool) (e : Nat) : packRounded s e (2 ^ 24) = packFloat s (e + 1) (2 ^ 23) := if_pos rfl

theorem packRounded_of_lt (s : Bool) (e : Nat) {q : Nat} (h : q < 2 ^ 24) : packRounded s e q = packFloat s e q :=
  if_neg h.ne

/-- The conversion packs the rounded significand. -/
theorem roundMagnitude_eq_packRounded (s : Bool) (m : Nat) :
    roundMagnitude s m = packRounded s (Nat.log2 m) (significand m) := by
  unfold roundMagnitude
  dsimp only
  split
  next h => rw [packRounded_of_lt s _ (significand_lt_of_le h), significand_of_le h]
  next h => rw [significand_of_gt (Nat.not_le.1 h)]; rfl

section
variable (s : Bool) {e q : Nat} (hlo : 2 ^ 23 ≤ q) (hhi : q ≤ 2 ^ 24)
include hlo hhi

/-- A packed significand denotes `±q * ulp e`, carried or not. -/
theorem valueOf_packRounded (he : e ≤ 126) :
    valueOf (packRounded s e q) = some ((if s then -1 else 1) * (q : Rat) * ulp e) := by
  rcases hhi.eq_or_lt with rfl | hlt
  · rw [packRounded_carry, valueOf_packFloat s (by omega) (by norm_num) le_rfl, ulp]
    congr 1
    rw [show ((e + 1 : Nat) : Int) - 23 = (e : Int) - 23 + 1 by push_cast; ring, zpow_add_one₀ (by norm_num)]
    push_cast
    ring
  · rw [packRounded_of_lt s e hlt, valueOf_packFloat s (by omega) hlt hlo, ulp]

/-- The fraction field of a packed significand is even where the significand is. -/
theorem fractionField_packRounded_mod_two : fractionField (packRounded s e q) % 2 = q % 2 := by
  rcases hhi.eq_or_lt with rfl | hlt
  · rw [packRounded_carry, fractionField_packFloat s _ (by norm_num) le_rfl]
    rfl
  · rw [packRounded_of_lt s e hlt, fractionField_packFloat s _ hlt hlo]
    omega

end

/-- The exponent field of a packed significand is one more where it has carried. -/
theorem exponentField_packRounded (s : Bool) {e : Nat} (q : Nat) (he : e ≤ 126) :
    exponentField (packRounded s e q) = if q = 2 ^ 24 then e + 128 else e + 127 := by
  rw [packRounded, apply_ite exponentField, exponentField_packFloat s _ (by omega), exponentField_packFloat s _ (by omega)]

/-! The converted integer (R89). -/

/-- The signed significand of an integer. -/
def signedSignificand (n : Int) : Int := n.sign * significand n.natAbs

/-- The weight of the low bit of an integer's significand. -/
def ulpOf (n : Int) : Rat := ulp (Nat.log2 n.natAbs)

theorem rne32_of_ne_zero {n : Int} (hn : n ≠ 0) :
    rne32 n = packRounded (decide (n < 0)) (Nat.log2 n.natAbs) (significand n.natAbs) := by
  rw [rne32, if_neg hn, roundMagnitude_eq_packRounded]

theorem log2_natAbs_le {n : Int} (hn : n ≠ 0) (hmax : |n| ≤ 2 ^ 31) : Nat.log2 n.natAbs ≤ 31 := by
  rw [Int.abs_eq_natAbs] at hmax
  rw [← Nat.lt_succ_iff, Nat.log2_lt (Int.natAbs_ne_zero.2 hn)]
  omega

/-- The number a converted integer denotes. -/
theorem valueOf_rne32 {n : Int} (hmax : |n| ≤ 2 ^ 31) : valueOf (rne32 n) = some (signedSignificand n * ulpOf n) := by
  by_cases hn : n = 0
  · subst hn
    rw [show valueOf (rne32 0) = some 0 from rfl]
    simp [signedSignificand]
  · obtain ⟨hlo, hhi⟩ := significand_range (Int.natAbs_ne_zero.2 hn)
    have he := log2_natAbs_le hn hmax
    rw [rne32_of_ne_zero hn, valueOf_packRounded _ hlo hhi (by omega), ulpOf, signedSignificand]
    rcases lt_or_gt_of_ne hn with hneg | hpos
    · simp [hneg, Int.sign_eq_neg_one_of_neg hneg]
    · simp [hpos.le.not_gt, Int.sign_eq_one_of_pos hpos]

/-- An integer is its sign times its magnitude, as its rounding is: the two errors have one size. -/
theorem abs_sub_signedSignificand {n : Int} (hn : n ≠ 0) :
    |(n : Rat) - signedSignificand n * ulpOf n| =
      |(n.natAbs : Rat) - significand n.natAbs * ulp (Nat.log2 n.natAbs)| := by
  rw [ulpOf, signedSignificand]
  rcases lt_or_gt_of_ne hn with hneg | hpos
  · have hcast : (n.natAbs : Rat) = -n := by
      rw [Nat.cast_natAbs, abs_of_neg hneg, Int.cast_neg]
    rw [Int.sign_eq_neg_one_of_neg hneg, hcast, ← abs_neg]
    congr 1
    push_cast
    ring
  · have hcast : (n.natAbs : Rat) = n := by rw [Nat.cast_natAbs, abs_of_pos hpos]
    rw [Int.sign_eq_one_of_pos hpos, hcast, one_mul]
    norm_cast

/-- The converted integer is off by at most half the low bit of its significand. -/
theorem two_mul_abs_sub_le_ulpOf (n : Int) : 2 * |(n : Rat) - signedSignificand n * ulpOf n| ≤ ulpOf n := by
  by_cases hn : n = 0
  · subst hn
    simpa [signedSignificand, ulpOf] using (ulp_pos (Nat.log2 0)).le
  · rw [abs_sub_signedSignificand hn]
    exact (significand_nearest n.natAbs).1

/-- Where it is off by half, the fraction field is even. -/
theorem fractionField_rne32_even {n : Int} (hn : n ≠ 0)
    (htie : 2 * |(n : Rat) - signedSignificand n * ulpOf n| = ulpOf n) : fractionField (rne32 n) % 2 = 0 := by
  obtain ⟨hlo, hhi⟩ := significand_range (Int.natAbs_ne_zero.2 hn)
  rw [abs_sub_signedSignificand hn] at htie
  rw [rne32_of_ne_zero hn, fractionField_packRounded_mod_two _ hlo hhi]
  exact (significand_nearest n.natAbs).2 htie

/-- The leading bit of an integer is at most the integer. -/
theorem two_pow_mul_ulpOf_le {n : Int} (hn : n ≠ 0) : 2 ^ 23 * ulpOf n ≤ |(n : Rat)| := by
  have hlead : (2 ^ Nat.log2 n.natAbs : Nat) ≤ (n.natAbs : Rat) :=
    Nat.cast_le.2 (Nat.log2_self_le (Int.natAbs_ne_zero.2 hn))
  rw [ulpOf, ← two_pow_eq_ulp]
  rw [Nat.cast_natAbs] at hlead
  exact_mod_cast hlead

/-- An integer below 2^24 in magnitude, and any other whose magnitude's bits past the 24th are 0, converts exactly. -/
theorem signedSignificand_of_dvd {n : Int} (h : 2 ^ (Nat.log2 n.natAbs - 23) ∣ n.natAbs) :
    signedSignificand n * ulpOf n = n := by
  by_cases hn : n = 0
  · subst hn
    simp [signedSignificand]
  · have exact : (n.natAbs : Rat) - significand n.natAbs * ulp (Nat.log2 n.natAbs) = 0 := by
      rw [significand_of_dvd h, sub_self]
    have herr := abs_sub_signedSignificand hn
    rw [exact, abs_zero, abs_eq_zero] at herr
    linear_combination -herr

/-- A magnitude of at most a power of two is that power or has its leading bit below it. -/
theorem log2_lt_or_eq {m k : Nat} (h : m ≤ 2 ^ k) : Nat.log2 m < k ∨ m = 2 ^ k ∨ m = 0 := by
  rcases h.eq_or_lt with heq | hlt
  · exact .inr (.inl heq)
  · by_cases hm : m = 0
    · exact .inr (.inr hm)
    · exact .inl ((Nat.log2_lt hm).2 hlt)

/-- A power of two from 2^23 up has 0 in every bit that its rounding drops. -/
theorem dvd_of_eq_two_pow {m k : Nat} (h : m = 2 ^ k) : 2 ^ (Nat.log2 m - 23) ∣ m := by
  rw [h, Nat.log2_two_pow]
  exact pow_dvd_pow 2 (Nat.sub_le k 23)

/-- Magnitudes up to 2^24 convert exactly. -/
theorem signedSignificand_of_le {n : Int} (h : |n| ≤ 2 ^ 24) : signedSignificand n * ulpOf n = n := by
  apply signedSignificand_of_dvd
  have hle : n.natAbs ≤ 2 ^ 24 := by rw [Int.abs_eq_natAbs] at h; omega
  rcases log2_lt_or_eq hle with hlt | heq | hzero
  · rw [Nat.sub_eq_zero_of_le (by omega)]
    exact one_dvd _
  · exact dvd_of_eq_two_pow heq
  · simp [hzero]

/-- Magnitudes up to 2^26 are off by at most 2: half of a low bit of 4, and 2^26 itself is exact. -/
theorem abs_sub_le_two {n : Int} (h : |n| ≤ 2 ^ 26) : |(n : Rat) - signedSignificand n * ulpOf n| ≤ 2 := by
  have hle : n.natAbs ≤ 2 ^ 26 := by rw [Int.abs_eq_natAbs] at h; omega
  rcases log2_lt_or_eq hle with hlt | heq | hzero
  · have hulp : ulpOf n ≤ 2 ^ (2 : Int) := zpow_le_zpow_right₀ (by norm_num) (by omega)
    have := two_mul_abs_sub_le_ulpOf n
    linarith
  · rw [signedSignificand_of_dvd (dvd_of_eq_two_pow heq)]
    norm_num
  · rw [Int.natAbs_eq_zero.1 hzero]
    norm_num [signedSignificand]

/-- The number a converted integer denotes is an integer. -/
theorem exists_int_eq_signedSignificand (n : Int) : ∃ z : Int, signedSignificand n * ulpOf n = z := by
  rcases Nat.le_total (Nat.log2 n.natAbs) 23 with hle | hge
  · exact ⟨n, signedSignificand_of_dvd (by rw [Nat.sub_eq_zero_of_le hle]; exact one_dvd _)⟩
  · refine ⟨signedSignificand n * 2 ^ (Nat.log2 n.natAbs - 23), ?_⟩
    rw [ulpOf, ulp_of_ge hge]
    push_cast
    rfl

/-- The exponent field of a converted integer that is not 0. -/
theorem exponentField_rne32 {n : Int} (hn : n ≠ 0) (hmax : |n| ≤ 2 ^ 31) :
    127 ≤ exponentField (rne32 n) ∧ exponentField (rne32 n) ≤ 158 := by
  have he := log2_natAbs_le hn hmax
  rw [rne32_of_ne_zero hn, exponentField_packRounded _ _ (by omega)]
  have hle : n.natAbs ≤ 2 ^ 31 := by rw [Int.abs_eq_natAbs] at hmax; omega
  rcases log2_lt_or_eq hle with hlt | heq | hzero
  · split_ifs <;> omega
  · rw [heq, show significand (2 ^ 31) = 2 ^ 23 by decide, Nat.log2_two_pow]
    decide
  · exact absurd (Int.natAbs_eq_zero.1 hzero) hn

/-- A converted integer is normal, but for 0. -/
theorem isNormal_rne32 {n : Int} (hn : n ≠ 0) (hmax : |n| ≤ 2 ^ 31) : IsNormal (rne32 n) := by
  obtain ⟨hlo, hhi⟩ := exponentField_rne32 hn hmax
  exact ⟨by omega, by omega⟩

/-! Which numbers patterns denote, and the nearest of them (R89, R94). -/

/-- What a pattern's fields say of its number, whether normal or zero. -/
theorem valueOf_eq_some {b : Word} {v : Rat} (h : valueOf b = some v) :
    v = 0 ∨ ∃ (c E : Int), |c| < 2 ^ 24 ∧ v = c * 2 ^ E := by
  unfold valueOf at h
  by_cases hnormal : 1 ≤ exponentField b ∧ exponentField b ≤ 254
  · rw [if_pos hnormal] at h
    cases h
    have hf : fractionField b < 2 ^ 23 := (b.extractLsb' 0 23).isLt
    refine .inr ⟨(if signBit b then -1 else 1) * (2 ^ 23 + fractionField b), (exponentField b : Int) - 127 - 23, ?_, ?_⟩
    · rw [abs_mul, apply_ite abs, abs_neg, abs_one, ite_self, one_mul, abs_of_nonneg (by omega)]
      omega
    · rw [zpow_sub₀ (by norm_num) ((exponentField b : Int) - 127)]
      push_cast
      ring
  · rw [if_neg hnormal] at h
    split_ifs at h
    exact .inl (Option.some.inj h).symm

/-- Every number a pattern denotes is a multiple of a given power of two, or has a magnitude below 2^23 of it. -/
theorem valueOf_multiple_or_small {b : Word} {v : Rat} (h : valueOf b = some v) (j : Int) :
    (∃ k : Int, v = k * 2 ^ j) ∨ |v| < 2 ^ 23 * 2 ^ j := by
  rcases valueOf_eq_some h with rfl | ⟨c, E, hc, rfl⟩
  · exact .inl ⟨0, by simp⟩
  · rcases le_or_gt j E with hle | hgt
    · obtain ⟨d, rfl⟩ := Int.le.dest hle
      refine .inl ⟨c * 2 ^ d, ?_⟩
      rw [zpow_add₀ (by norm_num), zpow_natCast]
      push_cast
      ring
    · refine .inr ?_
      have hc' : |(c : Rat)| < 2 ^ 24 := by exact_mod_cast hc
      rw [abs_mul, abs_of_pos (zpow_pos (by norm_num : (0 : Rat) < 2) E)]
      calc |(c : Rat)| * 2 ^ E
          < 2 ^ 24 * 2 ^ E := mul_lt_mul_of_pos_right hc' (zpow_pos (by norm_num) _)
        _ = 2 ^ 23 * 2 ^ (E + 1) := by rw [zpow_add_one₀ (by norm_num)]; ring
        _ ≤ 2 ^ 23 * 2 ^ j := by gcongr <;> [norm_num; omega]

/-- A multiple within half a step is as near as any other, and another as near means a tie. -/
theorem multiple_nearest {u x : Rat} {q k : Int} (hu : 0 < u) (hnear : 2 * |x - q * u| ≤ u) (hk : k ≠ q) :
    |q * u - x| ≤ |k * u - x| ∧ (|k * u - x| = |q * u - x| → 2 * |x - q * u| = u) := by
  have hgap : u ≤ |k * u - q * u| := by
    have hone : (1 : Rat) ≤ |(k : Rat) - q| := by exact_mod_cast Int.one_le_abs (sub_ne_zero.2 hk)
    calc u = 1 * u := (one_mul u).symm
      _ ≤ |(k : Rat) - q| * u := mul_le_mul_of_nonneg_right hone hu.le
      _ = |k * u - q * u| := by rw [← sub_mul, abs_mul, abs_of_pos hu]
  have htriangle : |k * u - q * u| ≤ |k * u - x| + |x - q * u| := abs_sub_le _ _ _
  rw [abs_sub_comm x] at *
  exact ⟨by linarith, fun h => by linarith⟩

/-- A pattern that denotes a multiple of a power of two within half a step of `x`, even at a tie, denotes the binary32 number
nearest `x`, when `x` is large enough for no finer multiple to be a binary32 number. -/
theorem nearestEven_of_multiple {b : Word} {x : Rat} {q j : Int} (hv : valueOf b = some ((q : Rat) * 2 ^ j))
    (hnear : 2 * |x - q * 2 ^ j| ≤ 2 ^ j) (htie : 2 * |x - q * 2 ^ j| = 2 ^ j → fractionField b % 2 = 0)
    (hx : 2 ^ 23 * 2 ^ j ≤ |x|) : NearestEven b x := by
  have hu : (0 : Rat) < 2 ^ j := zpow_pos (by norm_num) j
  have nearest (k : Int) : |q * 2 ^ j - x| ≤ |k * 2 ^ j - x| := by
    by_cases hk : k = q
    · rw [hk]
    · exact (multiple_nearest hu hnear hk).1
  refine ⟨_, hv, fun b' v' hv' => ?_⟩
  rcases valueOf_multiple_or_small hv' j with ⟨k, rfl⟩ | hsmall
  · refine ⟨nearest k, fun heq hne => htie ?_⟩
    exact (multiple_nearest hu hnear fun hk => hne (by rw [hk])).2 heq
  · have lead : |q * 2 ^ j - x| ≤ |x| - 2 ^ 23 * 2 ^ j := by
      rcases abs_cases x with ⟨habs, -⟩ | ⟨habs, -⟩
      · refine (nearest (2 ^ 23)).trans_eq ?_
        rw [habs] at hx ⊢
        push_cast
        rw [abs_of_nonpos (by linarith)]
        ring
      · refine (nearest (-2 ^ 23)).trans_eq ?_
        rw [habs] at hx ⊢
        push_cast
        rw [abs_of_nonneg (by linarith)]
        ring
    have far : |x| - |v'| ≤ |v' - x| := by
      rw [abs_sub_comm]
      exact abs_sub_abs_le_abs_sub x v'
    exact ⟨by linarith, fun heq => by linarith⟩

/-- A pattern that denotes `x` itself denotes the binary32 number nearest to it. -/
theorem nearestEven_of_valueOf {b : Word} {x : Rat} (hv : valueOf b = some x) : NearestEven b x := by
  refine ⟨x, hv, fun b' v' _ => ?_⟩
  rw [sub_self, abs_zero]
  exact ⟨abs_nonneg _, fun heq hne => absurd (sub_eq_zero.1 (abs_eq_zero.1 heq)) hne⟩

/-- The conversion rounds to the nearest binary32 number, ties to even. -/
theorem nearestEven_rne32 {n : Int} (hmax : |n| ≤ 2 ^ 31) : NearestEven (rne32 n) n := by
  by_cases hn : n = 0
  · exact nearestEven_of_valueOf ((valueOf_rne32 hmax).trans (by simp [hn, signedSignificand]))
  · exact nearestEven_of_multiple (valueOf_rne32 hmax) (two_mul_abs_sub_le_ulpOf n) (fractionField_rne32_even hn)
      (two_pow_mul_ulpOf_le hn)

end Sys2Proof.Machine

namespace Sys2Proof

open Machine

/-- Settles O36: the significand is rounded on a grid that holds every binary32 number as large as the integer's leading
bit. -/
theorem conversionRoundsToNearestEven : Obligations.ConversionRoundsToNearestEven := by
  unfold Obligations.ConversionRoundsToNearestEven
  intro n hlo hhi
  have hmax : |n| ≤ 2 ^ 31 := abs_le.2 ⟨hlo, hhi.le⟩
  refine ⟨nearestEven_rne32 hmax, fun h => ?_, fun h => ⟨_, valueOf_rne32 hmax, ?_⟩, fun h => ?_, fun h => ?_⟩
  · rw [valueOf_rne32 hmax, signedSignificand_of_le h]
  · rw [abs_sub_comm]
    exact abs_sub_le_two h
  · rw [h]; rfl
  · exact isNormal_rne32 h hmax

end Sys2Proof

/-! Scaling by 2^-15, and the float command's results as numbers (spec 40_datapath.md R90, R91, 41_dotprod.md R102, R105). -/

namespace Sys2Proof.Machine

/-! The fields of a pattern as arithmetic on its word (R94). -/

theorem exponentField_eq (b : Word) : exponentField b = b.toNat / 2 ^ 23 % 2 ^ 8 := by
  rw [exponentField, BitVec.extractLsb'_toNat, Nat.shiftRight_eq_div_pow]

theorem fractionField_eq (b : Word) : fractionField b = b.toNat % 2 ^ 23 := by
  rw [fractionField, BitVec.extractLsb'_toNat, Nat.shiftRight_zero]

theorem signBit_eq (b : Word) : signBit b = decide (2 ^ 31 ≤ b.toNat) := BitVec.msb_eq_decide b

/-! Scaling (R90). -/

section
variable {b : Word} (h : 15 ≤ exponentField b)
include h

/-- Scaling takes 15 from an exponent field that holds 15 or more: nothing is borrowed from the sign bit. -/
theorem toNat_scale15 : (scale15 b).toNat = b.toNat - 15 * 2 ^ 23 := by
  rw [exponentField_eq] at h
  have hne : b ≠ 0#32 := by rintro rfl; exact absurd h (by decide)
  rw [scale15, if_neg hne, BitVec.toNat_sub_of_le]
  · rfl
  · rw [BitVec.le_def]
    change 15 * 2 ^ 23 ≤ b.toNat
    omega

theorem exponentField_scale15 : exponentField (scale15 b) + 15 = exponentField b := by
  have hsub := toNat_scale15 h
  rw [exponentField_eq] at h
  rw [exponentField_eq, exponentField_eq]
  omega

theorem fractionField_scale15 : fractionField (scale15 b) = fractionField b := by
  have hsub := toNat_scale15 h
  rw [exponentField_eq] at h
  rw [fractionField_eq, fractionField_eq]
  omega

theorem signBit_scale15 : signBit (scale15 b) = signBit b := by
  have hsub := toNat_scale15 h
  rw [exponentField_eq] at h
  rw [signBit_eq, signBit_eq, decide_eq_decide]
  omega

end

/-- Scaling a normal pattern whose exponent leaves room multiplies its number by 2^-15. -/
theorem valueOf_scale15 {b : Word} {v : Rat} (hlo : 16 ≤ exponentField b) (hhi : exponentField b ≤ 254)
    (hv : valueOf b = some v) : valueOf (scale15 b) = some (v * (1 / 32768)) := by
  have h15 : 15 ≤ exponentField b := by omega
  have hexp := exponentField_scale15 h15
  rw [valueOf_normal rfl rfl rfl (by omega) hhi] at hv
  rw [valueOf_normal (signBit_scale15 h15) rfl (fractionField_scale15 h15) (by omega) (by omega), ← Option.some.inj hv,
    ← hexp]
  congr 1
  rw [show ((exponentField (scale15 b) + 15 : Nat) : Int) - 127 = (exponentField (scale15 b) : Int) - 127 + (15 : Nat) by
    push_cast; ring, zpow_add₀ (by norm_num), zpow_natCast]
  ring

/-- The number a scaled converted integer denotes. -/
theorem valueOf_scale15_rne32 {n : Int} (hmax : |n| ≤ 2 ^ 31) :
    valueOf (scale15 (rne32 n)) = some (signedSignificand n * ulpOf n * (1 / 32768)) := by
  by_cases hn : n = 0
  · subst hn
    rw [show valueOf (scale15 (rne32 0)) = some 0 from rfl]
    simp [signedSignificand]
  · obtain ⟨hlo, hhi⟩ := exponentField_rne32 hn hmax
    exact valueOf_scale15 (by omega) (by omega) (valueOf_rne32 hmax)

/-- An integer that converts exactly is scaled exactly. -/
theorem valueOf_scale15_rne32_of_dvd {n : Int} (hmax : |n| ≤ 2 ^ 31) (h : 2 ^ (Nat.log2 n.natAbs - 23) ∣ n.natAbs) :
    valueOf (scale15 (rne32 n)) = some ((n : Rat) * (1 / 32768)) := by
  rw [valueOf_scale15_rne32 hmax, signedSignificand_of_dvd h]

/-- `SCALE` is the scaled conversion of 1 (R28). -/
theorem valueOf_scale : valueOf Config.scale = some (1 / 32768) := by
  have h := valueOf_scale15_rne32_of_dvd (n := 1) (by decide) (by decide)
  rw [show scale15 (rne32 1) = Config.scale by decide] at h
  rw [h, Int.cast_one, one_mul]

/-- A scaled converted integer is normal, but for 0. -/
theorem isNormal_scale15_rne32 {n : Int} (hn : n ≠ 0) (hmax : |n| ≤ 2 ^ 31) : IsNormal (scale15 (rne32 n)) := by
  obtain ⟨hlo, hhi⟩ := exponentField_rne32 hn hmax
  have hexp := exponentField_scale15 (b := rne32 n) (by omega)
  exact ⟨by omega, by omega⟩

/-- A scaled converted integer is the binary32 number nearest the scaled integer: dividing by a power of two moves the grid
of binary32 numbers onto itself. -/
theorem nearestEven_scale15_rne32 {n : Int} (hmax : |n| ≤ 2 ^ 31) :
    NearestEven (scale15 (rne32 n)) ((n : Rat) * (1 / 32768)) := by
  have hv := valueOf_scale15_rne32 hmax
  by_cases hn : n = 0
  · exact nearestEven_of_valueOf (hv.trans (by simp [hn, signedSignificand]))
  · have step : ulpOf n * (1 / 32768) = 2 ^ ((Nat.log2 n.natAbs : Int) - 23 - 15) := by
      rw [ulpOf, ulp, zpow_sub₀ (by norm_num) _ 15]
      norm_num
      ring
    have err : 2 * |(n : Rat) * (1 / 32768) - signedSignificand n * (ulpOf n * (1 / 32768))| =
        2 * |(n : Rat) - signedSignificand n * ulpOf n| * (1 / 32768) := by
      rw [← mul_assoc (signedSignificand n : Rat), ← sub_mul, abs_mul, abs_of_pos (by norm_num : (0 : Rat) < 1 / 32768),
        mul_assoc]
    have hpos : (0 : Rat) < 1 / 32768 := by norm_num
    obtain ⟨hlo, -⟩ := exponentField_rne32 hn hmax
    refine nearestEven_of_multiple (q := signedSignificand n) (j := (Nat.log2 n.natAbs : Int) - 23 - 15) ?_ ?_ ?_ ?_ <;>
      rw [← step]
    · rw [hv, mul_assoc]
    · rw [err]
      exact mul_le_mul_of_nonneg_right (two_mul_abs_sub_le_ulpOf n) hpos.le
    · rw [err, fractionField_scale15 (by omega)]
      exact fun htie => fractionField_rne32_even hn (mul_right_cancel₀ hpos.ne' htie)
    · rw [abs_mul, abs_of_pos hpos, ← mul_assoc]
      exact mul_le_mul_of_nonneg_right (two_pow_mul_ulpOf_le hn) hpos.le

/-! The two channels of the float command (R102). -/

theorem computeDotprod8Float_fst (rv iv hv : Lanes) :
    (computeDotprod8Float rv iv hv).1 = convert (tree (shifted (products rv hv))) := by
  simp only [computeDotprod8Float]

theorem computeDotprod8Float_snd (rv iv hv : Lanes) :
    (computeDotprod8Float rv iv hv).2 = convert (tree (shifted (products iv hv))) := by
  simp only [computeDotprod8Float]

/-! The range of the results (R91). -/

/-- Rounding does not pass a binary32 number from below. -/
theorem le_of_nearestEven {b b' : Word} {x v y : Rat} (hb : NearestEven b x) (hv : valueOf b = some v)
    (hy : valueOf b' = some y) (hxy : x ≤ y) : v ≤ y := by
  obtain ⟨w, hw, hnear⟩ := hb
  obtain rfl : w = v := Option.some.inj (hw.symm.trans hv)
  have h := (hnear b' y hy).1
  rw [abs_of_nonneg (sub_nonneg.2 hxy)] at h
  linarith [le_abs_self (w - x)]

/-- Rounding does not pass a binary32 number from above. -/
theorem ge_of_nearestEven {b b' : Word} {x v y : Rat} (hb : NearestEven b x) (hv : valueOf b = some v)
    (hy : valueOf b' = some y) (hxy : y ≤ x) : y ≤ v := by
  obtain ⟨w, hw, hnear⟩ := hb
  obtain rfl : w = v := Option.some.inj (hw.symm.trans hv)
  have h := (hnear b' y hy).1
  rw [abs_of_nonpos (sub_nonpos.2 hxy)] at h
  linarith [neg_abs_le (w - x)]

/-- A normal pattern is neither zero. -/
theorem ne_zeros_of_isNormal {b : Word} (h : IsNormal b) : b ≠ 0x00000000#32 ∧ b ≠ 0x80000000#32 := by
  refine ⟨?_, ?_⟩
  · rintro rfl
    exact absurd h (by decide)
  · rintro rfl
    exact absurd h (by decide)

/-- A scaled converted integer is +0.0 for 0 only. -/
theorem scale15_rne32_eq_zero_iff {n : Int} (hmax : |n| ≤ 2 ^ 31) : scale15 (rne32 n) = 0x00000000#32 ↔ n = 0 := by
  constructor
  · intro hzero
    by_contra hn
    exact (ne_zeros_of_isNormal (isNormal_scale15_rne32 hn hmax)).1 hzero
  · rintro rfl
    rfl

/-- A scaled converted integer is never -0.0. -/
theorem scale15_rne32_ne_negZero {n : Int} (hmax : |n| ≤ 2 ^ 31) : scale15 (rne32 n) ≠ 0x80000000#32 := by
  by_cases hn : n = 0
  · rw [(scale15_rne32_eq_zero_iff hmax).2 hn]
    decide
  · exact (ne_zeros_of_isNormal (isNormal_scale15_rne32 hn hmax)).2

/-- The shifted sum is an integer the conversion takes. -/
theorem abs_laneSum_shifted_le (p : Lanes) : |laneSum (shifted p)| ≤ 2 ^ 31 := by
  obtain ⟨hlo, hhi⟩ := laneSum_shifted_range p
  exact abs_le.2 ⟨by omega, by omega⟩

/-- A scaled shifted sum stays within its own scaled bounds: they are binary32 numbers, and rounding does not pass one. -/
theorem valueOf_scaled_laneSum_range {p : Lanes} {v : Rat}
    (hv : valueOf (scale15 (rne32 (laneSum (shifted p)))) = some v) : -2048 ≤ v ∧ v ≤ 2047.999755859375 := by
  obtain ⟨hlo, hhi⟩ := laneSum_shifted_range p
  have hlo' : ((-2 ^ 26 : Int) : Rat) ≤ laneSum (shifted p) := Int.cast_le.2 hlo
  have hhi' : (laneSum (shifted p) : Rat) ≤ (2 ^ 26 - 8 : Int) := Int.cast_le.2 hhi
  have nearest := nearestEven_scale15_rne32 (abs_laneSum_shifted_le p)
  have lowest := valueOf_scale15_rne32_of_dvd (n := -2 ^ 26) (by decide) (by decide)
  have highest := valueOf_scale15_rne32_of_dvd (n := 2 ^ 26 - 8) (by decide) (by decide)
  constructor
  · calc (-2048 : Rat) = ((-2 ^ 26 : Int) : Rat) * (1 / 32768) := by norm_num
      _ ≤ v := ge_of_nearestEven nearest hv lowest (mul_le_mul_of_nonneg_right hlo' (by norm_num))
  · calc v ≤ ((2 ^ 26 - 8 : Int) : Rat) * (1 / 32768) :=
        le_of_nearestEven nearest hv highest (mul_le_mul_of_nonneg_right hhi' (by norm_num))
      _ = 2047.999755859375 := by norm_num

/-- Each channel of the float command's result, as a number and as a pattern. -/
theorem scaled_laneSum_facts (p : Lanes) :
    (∃ v, valueOf (convert (tree (shifted p))) = some v ∧ -2048 ≤ v ∧ v ≤ 2047.999755859375 ∧
      ∃ z : Int, v = z / 32768) ∧
    (convert (tree (shifted p)) = 0x00000000#32 ↔ laneSum (shifted p) = 0) ∧
    convert (tree (shifted p)) ≠ 0x80000000#32 ∧
    (convert (tree (shifted p)) = 0x00000000#32 ∨ IsNormal (convert (tree (shifted p)))) := by
  have hmax := abs_laneSum_shifted_le p
  have hv := valueOf_scale15_rne32 hmax
  obtain ⟨hlo, hhi⟩ := valueOf_scaled_laneSum_range hv
  obtain ⟨z, hz⟩ := exists_int_eq_signedSignificand (laneSum (shifted p))
  rw [convert_tree_shifted]
  refine ⟨⟨_, hv, hlo, hhi, z, ?_⟩, scale15_rne32_eq_zero_iff hmax, scale15_rne32_ne_negZero hmax, ?_⟩
  · rw [hz, mul_one_div]
  · by_cases hn : laneSum (shifted p) = 0
    · exact .inl ((scale15_rne32_eq_zero_iff hmax).2 hn)
    · exact .inr (isNormal_scale15_rne32 hn hmax)

/-! The shift of each lane against the shift of the sum (R83, R105). -/

/-- The shift of a word as the floor of an exact quotient. -/
theorem floor_s32_div (w : Word) : ⌊(s32 w : Rat) / 256⌋ = s32 (asr8 w) := by
  rw [s32_asr8]
  exact Rat.floor_intCast_div_natCast (s32 w) 256

/-- The float command's integer path is the sum of the lanes' floor quotients. -/
theorem s32_tree_shifted_eq_sum_floor (p : Lanes) : s32 (tree (shifted p)) = ∑ k, ⌊(s32 (p k) : Rat) / 256⌋ :=
  (s32_tree_shifted p).trans (Finset.sum_congr rfl fun k _ => (floor_s32_div (p k)).symm)

/-- Lanes that are multiples of 256 lose nothing to the shift, so shifting each or their sum is the same where the sum does
not wrap. -/
theorem tree_shifted_eq_asr8_flat {p : Lanes} (hdvd : ∀ k, (256 : Int) ∣ s32 (p k)) (hlo : -2 ^ 31 ≤ laneSum p)
    (hhi : laneSum p < 2 ^ 31) : tree (shifted p) = asr8 (flat p) := by
  have hsum : s32 (tree (shifted p)) = s32 (asr8 (flat p)) :=
    calc s32 (tree (shifted p))
        = ∑ k, s32 (p k) / 256 := (s32_tree_shifted p).trans (Finset.sum_congr rfl fun k _ => s32_asr8 (p k))
      _ = laneSum p / 256 := (Int.sum_div fun k _ => hdvd k).symm
      _ = s32 (asr8 (flat p)) := by rw [s32_asr8, flat_eq_wrap32_laneSum, s32_wrap32 hlo hhi]
  exact BitVec.eq_of_toInt_eq hsum

/-- Taps of 1 keep the samples. -/
theorem products_one (p : Lanes) : products p (fun _ => 1#32) = p := by
  funext k
  exact (mul32_eq_mul _ _).trans (BitVec.mul_one _)

end Sys2Proof.Machine

namespace Sys2Proof

open Machine

/-- Settles O37: a converted integer's exponent field has 15 to spare, and the grid it is rounded on scales with it. -/
theorem scalingIsExact : Obligations.ScalingIsExact := by
  unfold Obligations.ScalingIsExact
  refine ⟨valueOf_scale, fun n hlo hhi => ?_⟩
  have hmax : |n| ≤ 2 ^ 31 := abs_le.2 ⟨hlo, hhi.le⟩
  refine ⟨⟨_, valueOf_rne32 hmax, valueOf_scale15_rne32 hmax⟩, (scale15_rne32_eq_zero_iff hmax).2, fun hn => ?_,
    nearestEven_scale15_rne32 hmax⟩
  obtain ⟨hexpLo, hexpHi⟩ := exponentField_rne32 hn hmax
  have h15 : 15 ≤ exponentField (rne32 n) := by omega
  have hne : rne32 n ≠ 0#32 := (ne_zeros_of_isNormal (isNormal_rne32 hn hmax)).1
  exact ⟨by rw [scale15, if_neg hne]; rfl, hexpLo, hexpHi, exponentField_scale15 h15, fractionField_scale15 h15,
    signBit_scale15 h15⟩

/-- Settles O38: both channels scale the conversion of a shifted sum. -/
theorem floatResultsStayInRange : Obligations.FloatResultsStayInRange := by
  unfold Obligations.FloatResultsStayInRange
  intro rv iv hv bp hbp
  rw [List.mem_pair] at hbp
  rcases hbp with rfl | rfl
  · simp only [computeDotprod8Float_fst]
    exact scaled_laneSum_facts (products rv hv)
  · simp only [computeDotprod8Float_snd]
    exact scaled_laneSum_facts (products iv hv)

/-- Settles O13: the words written are scaled conversions of the shifted sums. -/
theorem dotprod8FloatIsTheNearestFloat : Obligations.Dotprod8FloatIsTheNearestFloat := by
  unfold Obligations.Dotprod8FloatIsTheNearestFloat
  intro s r i h y hs hc
  obtain ⟨m, hexec, hre, him, -⟩ := dotprod8FloatWritesTheScaledSums s r i h y hs hc
  have hmax (x : Word) : |windowShiftedDot s.mem x h| ≤ 2 ^ 31 := by
    rw [← laneSum_shifted_products]
    exact abs_laneSum_shifted_le _
  have nearest (x : Word) : NearestEven (scale15 (rne32 (windowShiftedDot s.mem x h)))
      (windowShiftedDot s.mem x h / 32768) := by
    rw [← mul_one_div]
    exact nearestEven_scale15_rne32 (hmax x)
  refine ⟨_, hexec, ?_⟩
  dsimp only
  rw [hre, him]
  exact ⟨nearest r, nearest i, scale15_rne32_ne_negZero (hmax r), scale15_rne32_ne_negZero (hmax i)⟩

/-- Settles O35: each lane's shift is a floor quotient, exact on multiples of 256, and the rule's example is evaluated. -/
theorem shiftIsPerLaneBeforeTheSum : Obligations.ShiftIsPerLaneBeforeTheSum := by
  unfold Obligations.ShiftIsPerLaneBeforeTheSum
  refine ⟨fun rv iv hv => ?_, fun rv iv hv hdvd hlo hhi => ?_, fun rv iv hv hdvd hlo hhi => ?_,
    s32_tree_shifted_eq_sum_floor, fun p => tree_shifted_eq_asr8_flat, ?_⟩
  · rw [← s32_tree_shifted_eq_sum_floor, ← s32_tree_shifted_eq_sum_floor]
    rfl
  · rw [computeDotprod8Float_fst, tree_shifted_eq_asr8_flat hdvd hlo hhi, convert]
    rfl
  · rw [computeDotprod8Float_snd, tree_shifted_eq_asr8_flat hdvd hlo hhi, convert]
    rfl
  · rintro p iv rfl
    simp only [computeDotprod8Float, computeDotprod8, products_one]
    decide

end Sys2Proof
